-- ==== Sys2Proof/Word.lean ====
section
/-! DEFINITION. The two word types of the engine and nothing else. -/

namespace Sys2Proof

/-- A byte: message bytes, buffer bytes, digest bytes (R20, R66, R67). -/
abbrev Byte := BitVec 8

/-- A 32-bit word: CMD, RESP, `H[i]`, `K[i]`, `W[t]` (R7 WORD_BITS). -/
abbrev Word := BitVec 32

end Sys2Proof
end

