-- ==== Sys2Proof/Syntax.lean ====
section
/-! DEFINITION. The commands as syntax: the decoded instruction, the fields of the CMD word, and the command triple. -/

namespace Sys2Proof

/-- The legal commands, one constructor per row of the opcode table (R62, R69). LEN and DATA are operands of the transaction
and not of the CMD word (R60, R69). -/
inductive Instr
  /-- INIT, R81. -/
  | init
  /-- UPDATE with the data-present flag P = CMD[27] (R63, R82). -/
  | update (p : Bool)
  /-- FINAL, R130. -/
  | final
deriving DecidableEq, Repr

/-- The fields of format CMD (R61): OP = [31:28], P = [27], RSV = [26:0]. -/
structure CmdFields where
  op  : BitVec 4
  p   : BitVec 1
  rsv : BitVec 27
deriving DecidableEq, Repr

/-- A command as the host presents it: the triple (CMD, LEN, DATA) of R60. -/
structure Command where
  /-- CMD, the command word (R61). -/
  cmd  : Word
  /-- LEN, 64-bit two's complement, read only by UPDATE (R65). -/
  len  : BitVec 64
  /-- DATA, a finite byte sequence, read only by UPDATE (R66). -/
  data : List Byte
deriving DecidableEq, Repr

end Sys2Proof
end

