-- ==== Sys2Proof/WellFormed.lean ====
section
/-! DEFINITION. What makes the fields of a CMD word legal (R62 to R64), an instruction well formed, and a command's DATA
exact (R66). -/

namespace Sys2Proof

/-- R64: RSV must be zero for every command. -/
def CmdFields.rsvZero (f : CmdFields) : Bool := f.rsv == 0#27

/-- R62: OP is 1, 2 or 3; every other value is reserved. -/
def CmdFields.opDefined (f : CmdFields) : Bool := f.op == 1#4 || f.op == 2#4 || f.op == 3#4

/-- R63: P may be 1 with UPDATE only. -/
def CmdFields.pAllowed (f : CmdFields) : Bool := f.p == 0#1 || f.op == 2#4

/-- The fields of a legal CMD word (R70). -/
def CmdFields.wf (f : CmdFields) : Bool := f.rsvZero && f.opDefined && f.pAllowed

/-- Every term of `Instr` is an instruction of the table: P is one bit and there is no other operand in the word. -/
def Instr.wf : Instr → Bool
  | .init => true
  | .update _ => true
  | .final => true

/-- The host's duty on DATA (R66, R185) for an instruction that reads it: with P = 1 and LEN not negative, DATA has exactly
LEN bytes. -/
def Command.dataExact (c : Command) : Instr → Bool
  | .init => true
  | .update p => !p || decide (c.len.toInt < 0) || decide ((c.data.length : Int) = c.len.toInt)
  | .final => true

end Sys2Proof
end

