-- ==== Sys2Proof/Decode.lean ====
section
/-! DEFINITION. The decoder of R69, total on all 2^32 CMD words and rejecting by name, and after it the encoder. -/

namespace Sys2Proof

/-- Why a CMD word is ILLEGAL (R70's list). The engine answers all three alike (R71, R163). -/
inductive Illegal
  /-- A RSV bit is set (R64). -/
  | reservedBits
  /-- OP is not 1, 2 or 3 (R62). -/
  | reservedOp
  /-- P = 1 on INIT or FINAL (R63). -/
  | dataPresent
deriving DecidableEq, Repr

/-- The fields of a CMD word (R61). -/
def splitCmd (w : Word) : CmdFields :=
  { op := w.extractLsb' 28 4, p := w.extractLsb' 27 1, rsv := w.extractLsb' 0 27 }

/-- R69, on the fields, its tests in its order. -/
def decodeFields (f : CmdFields) : Except Illegal Instr :=
  if f.rsv ≠ 0#27 then .error .reservedBits
  else if f.op = 1#4 then (if f.p = 0#1 then .ok .init else .error .dataPresent)
  else if f.op = 2#4 then .ok (.update (f.p == 1#1))
  else if f.op = 3#4 then (if f.p = 0#1 then .ok .final else .error .dataPresent)
  else .error .reservedOp

/-- R69: `decode`. It reads nothing but the CMD word. -/
def decode (w : Word) : Except Illegal Instr := decodeFields (splitCmd w)

/-- The fields of an instruction's CMD word (R62, R63, R64). -/
def Instr.fields : Instr → CmdFields
  | .init => { op := 1#4, p := 0#1, rsv := 0#27 }
  | .update p => { op := 2#4, p := BitVec.ofBool p, rsv := 0#27 }
  | .final => { op := 3#4, p := 0#1, rsv := 0#27 }

/-- The CMD word of the fields (R61): {OP, P, RSV}. -/
def packCmd (f : CmdFields) : Word := f.op ++ f.p ++ f.rsv

/-- The encoder: the CMD word of an instruction (R70). -/
def encode (i : Instr) : Word := packCmd i.fields

/-- The CMD word of a table row's bits: bit 0 of the table is bit 0 of CMD, which is a value and has no byte order (R47,
log 15); bits from `nbits` up are zero. -/
def tableWord (nbits w : Nat) : Word := BitVec.ofNat 32 (w % 2 ^ nbits)

/-- What the decoder reads from an opcode-table word. -/
def decodeTableWord (nbits w : Nat) : Option Instr :=
  match decode (tableWord nbits w) with
  | .ok i => some i
  | .error _ => none

end Sys2Proof
end

