-- ==== Sys2Proof/Config.lean ====
section
/-! DEFINITION. The parameters of R7 that the spec leaves OPEN. The fixed ones (64 bytes a block, 64 rounds, 8 digest
words) stand as numerals in the definitions that use them. COMPRESS_LATENCY and COMMAND_LATENCY have no place in an untimed
model (R187, log 13). -/

namespace Sys2Proof

/-- SCHEDULE_STRATEGY (R7, R113): how the message schedule is stored. -/
inductive ScheduleStrategy
  | full64
  | rolling16
deriving DecidableEq, Repr

/-- ROUND_STRATEGY (R7, R119): how the working variables are stored. -/
inductive RoundStrategy
  | copy8
  | circular
deriving DecidableEq, Repr

/-- The strategies this machine uses: those of the spec's pseudocode (R113, R119, D22). DESIGN CHOICE, safe (log 12): an
obligation says that no choice is observable. -/
def Config.scheduleStrategy : ScheduleStrategy := .full64

/-- See `Config.scheduleStrategy`. -/
def Config.roundStrategy : RoundStrategy := .copy8

/-- The default of NUM_ENGINES, 1 (R7, D23). The parameter itself is the argument of `State.resetWith` and of `platform`, every
other definition holds for any number of engines, and only `State.reset` reads this. That the host's one fixed machine is the
default one is DESIGN CHOICE (log 7). -/
def Config.numEngines : Nat := 1

end Sys2Proof
end

