-- ==== Sys2Proof/Machine/State.lean ====
section
/-! DEFINITION. The state of the machine as plain data: the engines of R20, what the host does next, and the responses
given so far; the reasons a step can stop; the state after reset. -/

namespace Sys2Proof.Machine

/-- The lifecycle register `life` (R21). Encoding 3 is never written and unreachable, and has no term here (log 5). -/
inductive Life
  | uninit
  | active
  | finalized
deriving DecidableEq, Repr

/-- `H[0..7]` (R26): the digest, 8 words. -/
structure Digest where
  h0 : Word
  h1 : Word
  h2 : Word
  h3 : Word
  h4 : Word
  h5 : Word
  h6 : Word
  h7 : Word
deriving DecidableEq, Repr

/-- The block buffer `buf` (R23, R40): (offset, byte) pairs, offsets strictly rising and below 64. An offset that is not
listed holds NO VALUE (R32, R33; log 18). -/
abbrev Memory := List Host.Cell

/-- The state one engine holds between commands (R20). `none` is the spec's own "no value" (R32): the reset value R33 gives
`used`, `bitlen` and `H`, and what FINAL writes to `used` (R130, R35; log 4). The constants `K` and `H_INIT` are
`kRom` and `hInit` of Machine/Constants.lean (R27; log 11). -/
structure Engine where
  /-- `life`, R21. -/
  life   : Life
  /-- `buf[0..63]`, R23. -/
  buf    : Memory
  /-- `used`, R24: a count (D25; log 6). -/
  used   : Option Nat
  /-- `bitlen`, R25. -/
  bitlen : Option (BitVec 64)
  /-- `H[0..7]`, R26. -/
  digest : Option Digest
deriving DecidableEq, Repr

/-- Whether the host keeps the duty of R183 when it issues a command (log 8). -/
inductive Turn
  /-- By the engine's one host, after the response to the command before. -/
  | inTurn
  /-- Before the previous response: the engine has a command outstanding. -/
  | beforeResponse
  /-- By a second host while another is using the engine. -/
  | secondHost
deriving DecidableEq, Repr

/-- A command as it reaches the platform: to which engine (R172; log 7), in which turn (R183), and the triple of R60. -/
structure Transaction where
  engine  : Nat
  turn    : Turn
  command : Command
deriving DecidableEq, Repr

/-- What the host does: issue a command, or assert an engine's reset input (R180). -/
inductive HostEvent
  | issue (t : Transaction)
  | reset (engine : Nat)
deriving DecidableEq, Repr

/-- STATUS by name (R68). -/
inductive Status
  | ok
  | invalidArgument
  | invalidState
  | illegalCommand
deriving DecidableEq, Repr

/-- The response of a command (R67). -/
structure Response where
  /-- RESP: STATUS in bits [1:0], zero above. -/
  resp      : Word
  /-- DIGEST_OUT: 32 bytes, or absent. -/
  digestOut : Option (List Byte)
deriving DecidableEq, Repr

/-- A response and the engine that gave it. -/
structure Answer where
  engine   : Nat
  response : Response
deriving DecidableEq, Repr

/-- The platform: its engines, the host's further events and the responses so far. -/
structure State where
  /-- The NUM_ENGINES engines (R7, R172; log 7). -/
  engines   : List Engine
  /-- What the host does next, oldest first: the model's own field (log 2). -/
  inputs    : List HostEvent
  /-- The observation of the run so far, oldest first (R188): the model's own field, read by nothing (log 3). -/
  responses : List Answer
deriving DecidableEq, Repr

/-- A state element that can hold no value (R32). -/
inductive Element
  | used
  | bitlen
  | digest
  | bufByte (offset : Nat)
deriving DecidableEq, Repr

/-- Where the machine stops with a fault. Neither is reached from reset: an obligation says so. -/
inductive Fault
  /-- A read of an element that holds no value: R32, "treats any read of it as a fault of the model", and the same in
  92_eei_decisions.md D14 and 93_implementation_defined.md I9. Raised by the operations of Machine/Ops.lean that read `used`,
  `bitlen`, `H` or a byte of `buf`. Safe: hardware goes on with whatever bits it holds. -/
  | readNoValue (e : Element)
  /-- An access to the block buffer outside 0..63, where there is no byte (R40, R42). Raised by the operations of Machine/Ops.lean
  that read or write a byte of `buf`. Safe. -/
  | outsideBuffer (offset : Nat)
deriving DecidableEq, Repr

/-- Where the machine gives a command no meaning (R175). A refusal ends the run of the whole platform, also of the engines it is
not about: DESIGN CHOICE, safe (log 22). -/
inductive Refusal
  /-- An arm of `exec` that has no meaning yet. No arm is left so. Safe. -/
  | notModelled (mnemonic : String)
  /-- UPDATE with P = 1 and LEN not negative whose DATA has not exactly LEN bytes (R66, R175, R185). Raised by UPDATE. Safe. -/
  | dataLength
  /-- A command issued before the previous response (R175, R183). Raised before decoding. Safe. -/
  | commandOutstanding
  /-- A command of a second host while another is using the engine (R54, R175, R183). Raised before decoding. Safe. -/
  | secondHost
  /-- An event addressed to an engine the platform does not hold (R172; log 7). Raised before decoding. Safe. -/
  | noSuchEngine (engine : Nat)
  /-- An instruction executed with no command presented, which `step` never does (log 19). Raised by every instruction. Safe. -/
  | noTransaction
deriving DecidableEq, Repr

/-- One engine after its reset input (R33, R180): `life` UNINIT, every other element no value. -/
def Engine.reset : Engine :=
  { life := .uninit, buf := [], used := none, bitlen := none, digest := none }

/-- A platform right after reset, with NUM_ENGINES as a named argument (R7, R172): that many engines at their reset values,
nothing issued and nothing answered (R181: reset produces no response). -/
def State.resetWith (numEngines : Nat) : State :=
  { engines := List.replicate numEngines Engine.reset, inputs := [], responses := [] }

/-- The machine right after reset: NUM_ENGINES at the spec's default. -/
def State.reset : State := State.resetWith Config.numEngines

end Sys2Proof.Machine
end

