-- ==== Sys2Proof/Machine/Compression.lean ====
section
/-! DEFINITION. The Compression Transform (41_compression.md): bit operations, the six functions, the message schedule in both
storages of R113, the rounds in both storages of R119, and COMPRESS. Words are unsigned and `+` wraps (R9). -/

namespace Sys2Proof.Machine

/-- R100. The amount is between 1 and 31; outside it rotr has no meaning, so no other amount can be written (log 14). -/
def rotr (x : Word) (n : Nat) (_h : 1 ≤ n ∧ n ≤ 31 := by decide) : Word := (x >>> n) ||| (x <<< (32 - n))

/-- R102: σ0. -/
def sigma0 (x : Word) : Word := rotr x 7 ^^^ rotr x 18 ^^^ (x >>> 3)

/-- R103: σ1. -/
def sigma1 (x : Word) : Word := rotr x 17 ^^^ rotr x 19 ^^^ (x >>> 10)

/-- R104: Σ0. -/
def bigSigma0 (x : Word) : Word := rotr x 2 ^^^ rotr x 13 ^^^ rotr x 22

/-- R105: Σ1. -/
def bigSigma1 (x : Word) : Word := rotr x 6 ^^^ rotr x 11 ^^^ rotr x 25

/-- R106: Ch. -/
def ch (x y z : Word) : Word := (x &&& y) ^^^ (~~~x &&& z)

/-- R107: Maj. -/
def maj (x y z : Word) : Word := (x &&& y) ^^^ (y &&& z) ^^^ (z &&& x)

/-- The word R112 appends to `W[0..t-1]`, for `t ≥ 16` (below 16 it is not used). -/
def scheduleWord (w : List Word) : Word :=
  sigma1 (w.getD (w.length - 2) 0) + w.getD (w.length - 7) 0 + sigma0 (w.getD (w.length - 15) 0) + w.getD (w.length - 16) 0

/-- R112's second loop, `n` words of it. -/
def extendSchedule : Nat → List Word → List Word
  | 0, w => w
  | n + 1, w => extendSchedule n (w ++ [scheduleWord w])

/-- FULL64 (R112): `W[0..63]` of the block's words `M[0..15]`. -/
def scheduleFull (m : List Word) : List Word := extendSchedule 48 m

/-- ROLLING16's update of the window for round `t ≥ 16` (R113). -/
def rollWindow (r : List Word) (t : Nat) : List Word :=
  r.set (t % 16) (r.getD (t % 16) 0 + sigma1 (r.getD ((t - 2) % 16) 0) + r.getD ((t - 7) % 16) 0 +
    sigma0 (r.getD ((t - 15) % 16) 0))

/-- What ROLLING16 gives the `n` rounds from `t` on, when the window before round `t` is `r` (R113). -/
def rollFrom : Nat → Nat → List Word → List Word
  | 0, _, _ => []
  | n + 1, t, r =>
    let r' := if t < 16 then r else rollWindow r t
    r'.getD (t % 16) 0 :: rollFrom n (t + 1) r'

/-- ROLLING16 (R113): the words the 64 rounds see. -/
def scheduleRolling (m : List Word) : List Word := rollFrom 64 0 m

/-- `W[0..63]` by SCHEDULE_STRATEGY (R113). -/
def schedule : ScheduleStrategy → List Word → List Word
  | .full64, m => scheduleFull m
  | .rolling16, m => scheduleRolling m

/-- The working variables `a..h` (R28). -/
structure Working where
  a : Word
  b : Word
  c : Word
  d : Word
  e : Word
  f : Word
  g : Word
  h : Word
deriving DecidableEq, Repr

/-- R114's T1. -/
def roundT1 (v : Working) (k w : Word) : Word := v.h + bigSigma1 v.e + ch v.e v.f v.g + k + w

/-- R114's T2. -/
def roundT2 (v : Working) : Word := bigSigma0 v.a + maj v.a v.b v.c

/-- R114: one mixing round, all its assignments at once. -/
def mixRound (v : Working) (k w : Word) : Working :=
  { a := roundT1 v k w + roundT2 v, b := v.a, c := v.b, d := v.c
    e := v.d + roundT1 v k w, f := v.e, g := v.f, h := v.g }

/-- R115: `(a, ..., h) <- (H[0], ..., H[7])`. -/
def Digest.toWorking (x : Digest) : Working :=
  { a := x.h0, b := x.h1, c := x.h2, d := x.h3, e := x.h4, f := x.h5, g := x.h6, h := x.h7 }

/-- COPY8 (R115, R119): the rounds over the pairs `K[t]`, `W[t]` in order. -/
def roundsCopy (v : Working) (kw : List (Word × Word)) : Working :=
  kw.foldl (fun v p => mixRound v p.1 p.2) v

/-- CIRCULAR (R119): variable `j` of `a..h` stands in slot `(base + j) mod 8`. -/
def circVar (slots : List Word) (base j : Nat) : Word := slots.getD ((base + j) % 8) 0

/-- The working variables that the slots and the index stand for. -/
def circWorking (slots : List Word) (base : Nat) : Working :=
  { a := circVar slots base 0, b := circVar slots base 1, c := circVar slots base 2, d := circVar slots base 3
    e := circVar slots base 4, f := circVar slots base 5, g := circVar slots base 6, h := circVar slots base 7 }

/-- CIRCULAR's round: the index steps back by one, so that six variables are renamed in place and only the new `e` (where `d`
was) and the new `a` (where `h` was) are written. The spec gives no formula; this one is DESIGN CHOICE (log 12). -/
def circRound (s : List Word × Nat) (k w : Word) : List Word × Nat :=
  let v := circWorking s.1 s.2
  ((s.1.set ((s.2 + 3) % 8) (v.d + roundT1 v k w)).set ((s.2 + 7) % 8) (roundT1 v k w + roundT2 v), (s.2 + 7) % 8)

/-- CIRCULAR's rounds. -/
def roundsCircular (v : Working) (kw : List (Word × Word)) : Working :=
  let s := kw.foldl (fun s p => circRound s p.1 p.2) ([v.a, v.b, v.c, v.d, v.e, v.f, v.g, v.h], 0)
  circWorking s.1 s.2

/-- The rounds by ROUND_STRATEGY (R119). -/
def rounds : RoundStrategy → Working → List (Word × Word) → Working
  | .copy8, v, kw => roundsCopy v kw
  | .circular, v, kw => roundsCircular v kw

/-- R116: the digest update. -/
def Digest.addWorking (x : Digest) (v : Working) : Digest :=
  { h0 := x.h0 + v.a, h1 := x.h1 + v.b, h2 := x.h2 + v.c, h3 := x.h3 + v.d
    h4 := x.h4 + v.e, h5 := x.h5 + v.f, h6 := x.h6 + v.g, h7 := x.h7 + v.h }

/-- R117: COMPRESS(Hin, M) with both storage strategies as arguments. -/
def compressBy (ss : ScheduleStrategy) (rs : RoundStrategy) (hin : Digest) (m : List Word) : Digest :=
  hin.addWorking (rounds rs hin.toWorking (kRom.zip (schedule ss m)))

/-- R117: COMPRESS(Hin, M) of this machine. -/
def compress (hin : Digest) (m : List Word) : Digest :=
  compressBy Config.scheduleStrategy Config.roundStrategy hin m

end Sys2Proof.Machine
end

