-- ==== Sys2Proof/Machine/Flags.lean ====
section
/-! DEFINITION. The engine has no condition flags (R30). What a command reports is its response: the STATUS codes of R68, the
RESP word of R67 and the encodings of `life` (R21) stand here. -/

namespace Sys2Proof.Machine

/-- The codes of R68. -/
def Status.code : Status → BitVec 2
  | .ok => 0
  | .invalidArgument => 1
  | .invalidState => 2
  | .illegalCommand => 3

/-- RESP (R67): STATUS in bits [1:0], bits [31:2] zero. -/
def Status.resp (st : Status) : Word := st.code.setWidth 32

/-- The response of a command that returns no digest (R67). -/
def plainResponse (st : Status) : Response := { resp := st.resp, digestOut := none }

/-- The response of a successful FINAL (R67). -/
def digestResponse (d : List Byte) : Response := { resp := Status.resp .ok, digestOut := some d }

/-- The encodings of `life` (R21). -/
def Life.code : Life → BitVec 2
  | .uninit => 0
  | .active => 1
  | .finalized => 2

end Sys2Proof.Machine
end

