-- ==== Sys2Proof/Machine/Operands.lean ====
section
/-! DEFINITION. The operands of a command (30_encoding.md §2): LEN as a signed number, and DATA under P. -/

namespace Sys2Proof.Machine

/-- `len = signed64(LEN)` (R65). -/
def signedLen (c : Command) : Int := c.len.toInt

/-- UPDATE's negative-length check (R161 (a)). -/
def negativeLen (c : Command) : Bool := decide (signedLen c < 0)

/-- UPDATE's null-data check (R161 (b)): P = 0 and `len` not zero. -/
def nullNonzero (p : Bool) (c : Command) : Bool := !p && decide (signedLen c ≠ 0)

/-- The breach of R185: P = 1 and DATA not of exactly `len` bytes. -/
def dataMismatch (p : Bool) (c : Command) : Bool := p && decide ((c.data.length : Int) ≠ signedLen c)

/-- The bytes UPDATE absorbs: DATA when P = 1; when P = 0 DATA is ignored (R63, R66; log 20). -/
def messageBytes (p : Bool) (c : Command) : List Byte := if p then c.data else []

end Sys2Proof.Machine
end

