-- ==== Sys2Proof/Machine/Ops.lean ====
section
/-! DEFINITION. The shared operations: the block buffer's bytes and words, reading the elements that can hold no value,
compressing the buffer, serializing the digest, and answering a command, with or without an error. -/

namespace Sys2Proof.Machine

/-- The byte at an offset, `none` where it holds no value. -/
def Memory.read : Memory → Nat → Option Byte
  | [], _ => none
  | (x, v) :: m, a => if x = a then some v else Memory.read m a

/-- The buffer with the byte at an offset replaced (R43: a write replaces the old byte). -/
def Memory.write : Memory → Nat → Byte → Memory
  | [], a, b => [(a, b)]
  | (x, v) :: m, a, b =>
    if a < x then (a, b) :: (x, v) :: m
    else if a = x then (a, b) :: m
    else (x, v) :: Memory.write m a b

/-- Offsets strictly rising from `lo` on and below 64. -/
def Memory.risingFrom : Nat → Memory → Bool
  | _, [] => true
  | lo, (x, _) :: m => decide (lo ≤ x) && decide (x < 64) && Memory.risingFrom (x + 1) m

/-- The canonical form: offsets strictly rising, all of them in 0..63 (R40). An unlisted offset reads as no value, which no
entry can be equal to. -/
def Memory.wf (m : Memory) : Bool := Memory.risingFrom 0 m

/-- One byte read. An offset outside 0..63 does not exist (R40, R42). Of a byte that holds no value R32 says that a model "treats
any read of it as a fault of the model", and 93_implementation_defined.md I9 gives it the treatment `fault`. -/
def readByte (m : Memory) (a : Nat) : Except Fault Byte :=
  if a < 64 then
    match m.read a with
    | some b => .ok b
    | none => .error (.readNoValue (.bufByte a))
  else .error (.outsideBuffer a)

/-- One byte written (R43, n = 1). -/
def writeByte (m : Memory) (a : Nat) (b : Byte) : Except Fault Memory :=
  if a < 64 then .ok (m.write a b) else .error (.outsideBuffer a)

/-- `n` bytes from an offset on, lowest offset first. -/
def readBytes (m : Memory) (a : Nat) : Nat → Except Fault (List Byte)
  | 0 => .ok []
  | n + 1 => do
    let b ← readByte m a
    let bs ← readBytes m (a + 1) n
    .ok (b :: bs)

/-- Bytes written from an offset on. -/
def writeBytes (m : Memory) (a : Nat) : List Byte → Except Fault Memory
  | [] => .ok m
  | b :: bs => do
    let m' ← writeByte m a b
    writeBytes m' (a + 1) bs

/-- The number whose bytes, most significant first, are the list (R42). -/
def joinBE (bs : List Byte) : Nat := bs.foldl (fun n b => n * 256 + b.toNat) 0

/-- The `n` bytes of a value, most significant first: byte `k` is `v[8(n-1-k)+7 : 8(n-1-k)]` (R43, R46). -/
def splitBE (n : Nat) {w : Nat} (v : BitVec w) : List Byte :=
  (List.range n).map fun k => v.extractLsb' (8 * (n - 1 - k)) 8

/-- `MemRead(addr, n)` (R42). -/
def memRead (m : Memory) (addr n : Nat) : Except Fault (BitVec (8 * n)) := do
  let bs ← readBytes m addr n
  .ok (BitVec.ofNat (8 * n) (joinBE bs))

/-- `MemWrite(addr, n, v)` (R43). -/
def memWrite (m : Memory) (addr n : Nat) (v : BitVec (8 * n)) : Except Fault Memory :=
  writeBytes m addr (splitBE n v)

/-- `BufWord(j)` (R41). -/
def bufWord (m : Memory) (j : Nat) : Except Fault Word := memRead m (4 * j) 4

/-- `n` buffer words from word `j` on. -/
def wordsFrom (m : Memory) (j : Nat) : Nat → Except Fault (List Word)
  | 0 => .ok []
  | n + 1 => do
    let w ← bufWord m j
    let ws ← wordsFrom m (j + 1) n
    .ok (w :: ws)

/-- COMPRESS's block input `M[0..15]` (R111). -/
def blockWords (m : Memory) : Except Fault (List Word) := wordsFrom m 0 16

/-- R130's loops `for i = p .. q-1: MemWrite(i, 1, 0x00)`; nothing when `p = q`. -/
def zeroFill (m : Memory) (p q : Nat) : Except Fault Memory := writeBytes m p (List.replicate (q - p) 0#8)

/-- Reading an element that can hold no value: R32, a model "treats any read of it as a fault of the model", and
93_implementation_defined.md I9, `fault` on read. -/
def readElement {α : Type} (e : Element) : Option α → Except Fault α
  | some v => .ok v
  | none => .error (.readNoValue e)

/-- `H <- COMPRESS(H, [BufWord(0), ..., BufWord(15)])`: the new `H` (R111, R117). -/
def compressBuffer (h : Digest) (m : Memory) : Except Fault Digest := do
  let ws ← blockWords m
  .ok (compress h ws)

/-- The words of `H` in order 0..7. -/
def Digest.words (x : Digest) : List Word := [x.h0, x.h1, x.h2, x.h3, x.h4, x.h5, x.h6, x.h7]

/-- DIGEST_OUT (R46): the words in order, each most significant byte first. -/
def digestBytes (x : Digest) : List Byte := x.words.flatMap (splitBE 4)

/-- The head event is answered: it leaves the inputs, and the response is observed (R67, R188). -/
def answer (s : State) (n : Nat) (r : Response) : State :=
  { s with inputs := s.inputs.tail, responses := s.responses ++ [{ engine := n, response := r }] }

/-- `respond` (R10) by engine `n` whose state is now `e`. -/
def respond (s : State) (n : Nat) (e : Engine) (r : Response) : State :=
  answer { s with engines := s.engines.set n e } n r

/-- `raise` (R10, R165), the engine's ONE way of reporting an error: the command is answered with the status, no digest, and
no element of any engine changes. It is the exception entry of this hardware: nothing is saved and there is no return
(R160, R169). -/
def raise (s : State) (n : Nat) (st : Status) : Host.Outcome State Fault Refusal :=
  .next (answer s n (plainResponse st))

/-- What an instruction works on: the transaction at the head of the inputs and the engine it addresses. -/
def withTransaction (s : State) (k : Transaction → Engine → Host.Outcome State Fault Refusal) :
    Host.Outcome State Fault Refusal :=
  match s.inputs with
  | .issue t :: _ =>
    match s.engines[t.engine]? with
    | some e => k t e
    | none => .refused (.noSuchEngine t.engine)
  | .reset _ :: _ => .refused .noTransaction
  | [] => .refused .noTransaction

/-- R180: the reset input of engine `n`. No response is produced (R181). -/
def resetEngine (s : State) (n : Nat) : Host.Outcome State Fault Refusal :=
  match s.engines[n]? with
  | some _ => .next { s with engines := s.engines.set n Engine.reset, inputs := s.inputs.tail }
  | none => .refused (.noSuchEngine n)

end Sys2Proof.Machine
end

