-- ==== Sys2Proof/Machine/Absorption.lean ====
section
/-! DEFINITION. The absorption family (40_absorption.md): ABSORB_BYTE, INIT and UPDATE. -/

namespace Sys2Proof.Machine

/-- R80: ABSORB_BYTE(b). The compression and the bit count happen when the 64th byte arrives. -/
def absorbByte (e : Engine) (b : Byte) : Except Fault Engine := do
  let used ← readElement .used e.used
  let buf ← memWrite e.buf used 1 b
  if used + 1 = 64 then do
    let h ← readElement .digest e.digest
    let h' ← compressBuffer h buf
    let bitlen ← readElement .bitlen e.bitlen
    .ok { e with buf := buf, used := some 0, bitlen := some (bitlen + 512#64), digest := some h' }
  else .ok { e with buf := buf, used := some (used + 1) }

/-- R82's loop: ABSORB_BYTE for each byte in stream order (R44, R83). -/
def absorb (e : Engine) : List Byte → Except Fault Engine
  | [] => .ok e
  | b :: bs => do
    let e' ← absorbByte e b
    absorb e' bs

/-- The engine after INIT (R81). `buf` is not written (D15). -/
def initEngine (e : Engine) : Engine :=
  { e with life := .active, used := some 0, bitlen := some 0#64, digest := some hInit }

/-- INIT (R81): it succeeds in every `life` state. -/
def execInit (s : State) : Host.Outcome State Fault Refusal :=
  withTransaction s fun t e => .next (respond s t.engine (initEngine e) (plainResponse .ok))

/-- UPDATE (R82), its checks in the order of R164. -/
def execUpdate (p : Bool) (s : State) : Host.Outcome State Fault Refusal :=
  withTransaction s fun t e =>
    if e.life ≠ .active then raise s t.engine .invalidState
    else if negativeLen t.command then raise s t.engine .invalidArgument
    else if nullNonzero p t.command then raise s t.engine .invalidArgument
    else if dataMismatch p t.command then .refused .dataLength
    else
      match absorb e (messageBytes p t.command) with
      | .ok e' => .next (respond s t.engine e' (plainResponse .ok))
      | .error f => .fault f

end Sys2Proof.Machine
end

