-- ==== Sys2Proof/Machine/Finalization.lean ====
section
/-! DEFINITION. The finalization family (42_finalization.md): padding and FINAL. -/

namespace Sys2Proof.Machine

/-- R130 step 3: where the length does not fit (`p > 56`) the block is zero-filled and compressed and the write pointer goes to
0; `bitlen` is not changed. Buffer, `H` and `p` after it. -/
def padOverflow (m : Memory) (h : Digest) (p : Nat) : Except Fault (Memory × Digest × Nat) :=
  if p > 56 then do
    let m' ← zeroFill m p 64
    let h' ← compressBuffer h m'
    .ok (m', h', 0)
  else .ok (m, h, p)

/-- R130 steps 1 to 6 and the state written (R35): the engine after FINAL and the final digest. -/
def finalize (e : Engine) : Except Fault (Engine × Digest) := do
  let used ← readElement .used e.used
  let bitlen₀ ← readElement .bitlen e.bitlen
  let h ← readElement .digest e.digest
  let bitlen := bitlen₀ + BitVec.ofNat 64 (8 * used)
  let m₁ ← memWrite e.buf used 1 0x80#8
  let (m₂, h₂, p) ← padOverflow m₁ h (used + 1)
  let m₃ ← zeroFill m₂ p 56
  let m₄ ← memWrite m₃ 56 8 bitlen
  let h' ← compressBuffer h₂ m₄
  .ok ({ life := .finalized, buf := m₄, used := none, bitlen := some bitlen, digest := some h' }, h')

/-- FINAL (R130): the `life` check, then the digest (step 7, R46). -/
def execFinal (s : State) : Host.Outcome State Fault Refusal :=
  withTransaction s fun t e =>
    if e.life ≠ .active then raise s t.engine .invalidState
    else
      match finalize e with
      | .ok (e', h) => .next (respond s t.engine e' (digestResponse (digestBytes h)))
      | .error f => .fault f

end Sys2Proof.Machine
end

