-- ==== Sys2Proof/Machine/Run.lean ====
section
/-! DEFINITION. How the platform takes the host's next event: the duties of R183, decoding, the ILLEGAL answer, execution,
reset and idling. -/

namespace Sys2Proof.Machine

/-- A transaction at the head of the inputs. A breach of R183 is refused; an ILLEGAL word is answered before any other check
(R163, R164); a legal one is executed. R175 and R188 end the run of the ONE engine whose command is refused and are silent on
the others; that a refusal here ends the step of the whole platform, the other engines and their pending events included, is
DESIGN CHOICE, safe (log 22). -/
def runTransaction (s : State) (t : Transaction) : Host.Outcome State Fault Refusal :=
  match t.turn with
  | .beforeResponse => .refused .commandOutstanding
  | .secondHost => .refused .secondHost
  | .inTurn =>
    match s.engines[t.engine]? with
    | none => .refused (.noSuchEngine t.engine)
    | some _ =>
      match decode t.command.cmd with
      | .error _ => raise s t.engine .illegalCommand
      | .ok i => exec i s

/-- The host's next event. With none the platform is idle and holds its state (R5, R174; log 1). -/
def runEvent (s : State) : Host.Outcome State Fault Refusal :=
  match s.inputs with
  | [] => .next s
  | .reset n :: _ => resetEngine s n
  | .issue t :: _ => runTransaction s t

/-- The transaction that presents a table row's word: in turn, to engine 0, with LEN = 0 and no DATA (log 2). -/
def tableTransaction (nbits w : Nat) : Transaction :=
  { engine := 0, turn := .inTurn, command := { cmd := tableWord nbits w, len := 0#64, data := [] } }

end Sys2Proof.Machine
end

