-- ==== Sys2Proof/Machine/Step.lean ====
section
/-! DEFINITION. One step of the machine: one event of the host (R5, R6). -/

namespace Sys2Proof.Machine

/-- One step: the host's next event, a whole command with its response or a reset (R5, R6, R180). -/
def step (s : State) : Host.Outcome State Fault Refusal := Sys2Proof.Machine.runEvent s

/-- The state in which the host issues the word next, before the events it already holds (log 2). -/
def State.withFetchWord (s : State) (nbits w : Nat) : State :=
  { s with inputs := .issue (Sys2Proof.Machine.tableTransaction nbits w) :: s.inputs }

end Sys2Proof.Machine
end

