-- ==== Sys2Proof/Machine/Program.lean ====
section
/-! DEFINITION. Command lines and pseudo-commands (30_encoding.md §5) as data, and the host events that issue them. -/

namespace Sys2Proof.Machine

/-- The lines of R73. Text is a list of characters; there is no parser (log 21). -/
inductive AsmLine
  | init
  /-- `UPDATE "s"` -/
  | updateText (s : List Char)
  /-- `UPDATE x0 x1 ...` -/
  | updateBytes (bs : List Byte)
  /-- `UPDATE n*"c"` -/
  | updateRepeat (n : Nat) (c : Char)
  /-- `UPDATE.LEN len, <data>`: a length that may disagree with the data. -/
  | updateLen (len : Int) (bs : List Byte)
  /-- `UPDATE.NULL len` -/
  | updateNull (len : Int)
  | final
  /-- `.word 0xXXXXXXXX` -/
  | word (w : Word)
deriving DecidableEq, Repr

/-- The ASCII byte of a character (R73). -/
def asciiByte (c : Char) : Byte := BitVec.ofNat 8 c.toNat

/-- An UPDATE with data present: LEN is the number of bytes (R73). -/
def updateCommand (bs : List Byte) : Command :=
  { cmd := 0x28000000#32, len := BitVec.ofNat 64 bs.length, data := bs }

/-- The command a line stands for (R73). -/
def AsmLine.command : AsmLine → Command
  | .init => { cmd := 0x10000000#32, len := 0#64, data := [] }
  | .updateText s => updateCommand (s.map asciiByte)
  | .updateBytes bs => updateCommand bs
  | .updateRepeat n c => updateCommand (List.replicate n (asciiByte c))
  | .updateLen len bs => { cmd := 0x28000000#32, len := BitVec.ofInt 64 len, data := bs }
  | .updateNull len => { cmd := 0x20000000#32, len := BitVec.ofInt 64 len, data := [] }
  | .final => { cmd := 0x30000000#32, len := 0#64, data := [] }
  | .word w => { cmd := w, len := 0#64, data := [] }

/-- Consecutive pieces of at most `k` bytes, at most `fuel` of them. -/
def chunksOf (k : Nat) : Nat → List Byte → List (List Byte)
  | 0, _ => []
  | _ + 1, [] => []
  | fuel + 1, b :: bs => (b :: bs).take k :: chunksOf k fuel ((b :: bs).drop k)

/-- `HASH <data>` (R74). -/
def pseudoHash (d : List Byte) : List AsmLine := [.init, .updateBytes d, .final]

/-- `UPDATE.EMPTY` (R74). -/
def pseudoUpdateEmpty : List AsmLine := [.updateNull 0]

/-- `UPDATE.CHUNKS k, <data>` (R74), for `k ≥ 1`. -/
def pseudoUpdateChunks (k : Nat) (d : List Byte) : List AsmLine := (chunksOf k d.length d).map .updateBytes

/-- The host issues the lines to engine `n`, each in turn. -/
def issueLines (n : Nat) (ls : List AsmLine) : List HostEvent :=
  ls.map fun l => .issue { engine := n, turn := .inTurn, command := l.command }

end Sys2Proof.Machine
end

