-- ==== Sys2Proof/Safety.lean ====
section
/-! DEFINITION. The terms the claims use: what an instruction is presented with and what an answer leaves alone, when an engine is
ready, the message an engine holds (R36), the invariant, the lifecycle table (R22), the engine function (R134) on whole
padded messages (R132), and when two engines differ in dead bytes only (R34). -/

namespace Sys2Proof.Machine

/-- The machine with NUM_ENGINES as a named argument (R7, R172). `Sys2Proof.core` is the one with the spec's default. -/
def platform (numEngines : Nat) : Host.Core :=
  { State := State, Fault := Fault, Refusal := Refusal, step := step, reset := State.resetWith numEngines }

/-- The transaction `t` is the host's next event, and `e` is the engine it addresses. -/
def Presents (s : State) (t : Transaction) (e : Engine) : Prop :=
  s.inputs.head? = some (.issue t) ∧ s.engines[t.engine]? = some e

/-- From `s` to `s'` the head event was answered by engine `n` with `r`, and nothing but engine `n` may have changed: the other
events, the earlier responses and every other engine are as before. -/
structure Answered (s s' : State) (n : Nat) (r : Response) : Prop where
  inputs    : s'.inputs = s.inputs.tail
  responses : s'.responses = s.responses ++ [{ engine := n, response := r }]
  count     : s'.engines.length = s.engines.length
  others    : ∀ m, m ≠ n → s'.engines[m]? = s.engines[m]?

/-- The instruction is answered by engine `n` with an error code: a next state, no digest, and no element of any engine changed
(R160, R165). -/
def FailsWith (i : Instr) (s : State) (n : Nat) (code : Word) : Prop :=
  ∃ s', exec i s = .next s' ∧ s'.engines = s.engines ∧ Answered s s' n { resp := code, digestOut := none }

/-- An engine that UPDATE and FINAL can work on: ACTIVE, `used` below 64, `bitlen` and `H` with values, and the buffered tail
of the message in the first `used` bytes of the buffer (R24, R36). Nothing is said of `bitlen mod 512`. -/
structure Engine.Ready (e : Engine) (tail : List Byte) (bitlen : BitVec 64) (h : Digest) : Prop where
  life   : e.life = .active
  used   : e.used = some tail.length
  bound  : tail.length < 64
  bitlen : e.bitlen = some bitlen
  digest : e.digest = some h
  bytes  : ∀ i, i < tail.length → e.buf.read i = tail[i]?

/-- The big-endian words of a byte sequence, 4 bytes each (R41). -/
def beWords : List Byte → List Word
  | b₀ :: b₁ :: b₂ :: b₃ :: rest => (b₀ ++ b₁ ++ b₂ ++ b₃) :: beWords rest
  | _ => []

/-- `H` after compressing the first `n` 64-byte blocks of `d` in order from `h`. -/
def hashBlocks : Nat → Digest → List Byte → Digest
  | 0, h, _ => h
  | n + 1, h, d => hashBlocks n (compress h (beWords (d.take 64))) (d.drop 64)

/-- What FINAL appends to a buffered tail of `u` bytes, when the length field is `len` (R132, both rows). -/
def padding (u : Nat) (len : BitVec 64) : List Byte :=
  if u ≤ 55 then [0x80#8] ++ List.replicate (55 - u) 0#8 ++ splitBE 8 len
  else [0x80#8] ++ List.replicate (63 - u) 0#8 ++ List.replicate 56 0#8 ++ splitBE 8 len

/-- R131: how many blocks FINAL compresses. -/
def finalBlockCount (u : Nat) : Nat := if u ≤ 55 then 1 else 2

/-- The padded message (R132): its length in bits is taken mod 2^64 (R139). -/
def padded (d : List Byte) : List Byte := d ++ padding (d.length % 64) (BitVec.ofNat 64 (8 * d.length))

/-- ENGINE(d), by padding the whole message and compressing its blocks from `H_INIT`. R134 defines ENGINE by a run; an
obligation says the run gives this. -/
def engineFn (d : List Byte) : List Byte :=
  digestBytes (hashBlocks (d.length / 64 + finalBlockCount (d.length % 64)) hInit (padded d))

/-- R36: the engine is ACTIVE and has absorbed exactly `msg` since the last INIT. -/
structure Engine.Holds (e : Engine) (msg : List Byte) : Prop where
  life   : e.life = .active
  used   : e.used = some (msg.length % 64)
  bitlen : e.bitlen = some (BitVec.ofNat 64 (512 * (msg.length / 64)))
  digest : e.digest = some (hashBlocks (msg.length / 64) hInit msg)
  bytes  : ∀ i, i < msg.length % 64 → e.buf.read i = msg[64 * (msg.length / 64) + i]?

/-- What holds of every engine between commands: the buffer is in canonical form; an UNINIT engine is as reset left it (R33);
an ACTIVE one holds some message (R36); a FINALIZED one has no value in `used` and values elsewhere (R35). -/
structure Engine.Inv (e : Engine) : Prop where
  wf        : e.buf.wf = true
  uninit    : e.life = .uninit → e = Engine.reset
  active    : e.life = .active → ∃ msg, e.Holds msg
  finalized : e.life = .finalized →
    e.used = none ∧ e.bitlen.isSome = true ∧ e.digest.isSome = true ∧ ∀ a, a < 64 → (e.buf.read a).isSome = true

/-- The invariant of the platform: every engine's, and there is at least one engine (R7: NUM_ENGINES ≥ 1). -/
structure State.Inv (s : State) : Prop where
  engines : ∀ e, e ∈ s.engines → e.Inv
  count   : 1 ≤ s.engines.length

/-- RESP[31:2] is zero, and a digest comes with STATUS = OK only and has 32 bytes (R67, R133). -/
def Response.shaped (r : Response) : Prop :=
  r.resp.extractLsb' 2 30 = 0#30 ∧
    ∀ d, r.digestOut = some d → r.resp = Status.resp .ok ∧ d.length = 32

/-- R22's table and its two further transitions: the `life` of engine `n` after an event, from its `life` before. A command
moves only the engine it is issued to. -/
def lifeAfter (n : Nat) (ev : HostEvent) (l : Life) : Life :=
  match ev with
  | .reset m => if m = n then .uninit else l
  | .issue t =>
    if t.engine = n then
      match decode t.command.cmd with
      | .ok .init => .active
      | .ok (.update _) => l
      | .ok .final => if l = .active then .finalized else l
      | .error _ => l
    else l

/-- The engine an event addresses. -/
def HostEvent.engine : HostEvent → Nat
  | .issue t => t.engine
  | .reset n => n

/-- `k` steps, all of them answering next states. -/
def runSteps : Nat → State → Option State
  | 0, s => some s
  | k + 1, s =>
    match step s with
    | .next s' => runSteps k s'
    | .fault _ => none
    | .refused _ => none

/-- R34: two engines that no command can tell apart. `life` is equal; while ACTIVE `used`, `bitlen`, `H` and the bytes below
`used` are equal; all else is dead. -/
structure Engine.SameLive (e e' : Engine) : Prop where
  life   : e.life = e'.life
  used   : e.life = .active → e.used = e'.used
  bitlen : e.life = .active → e.bitlen = e'.bitlen
  digest : e.life = .active → e.digest = e'.digest
  bytes  : e.life = .active → ∀ u, e.used = some u → ∀ i, i < u → e.buf.read i = e'.buf.read i

/-- Two platforms that differ in dead state only. -/
structure State.SameLive (s s' : State) : Prop where
  inputs    : s.inputs = s'.inputs
  responses : s.responses = s'.responses
  engines   : List.Forall₂ Engine.SameLive s.engines s'.engines

/-- Two outcomes of one kind: next states that differ in dead state only, or the same stop. -/
def sameOutcome : Host.Outcome State Fault Refusal → Host.Outcome State Fault Refusal → Prop
  | .next s, .next s' => s.SameLive s'
  | .fault f, .fault f' => f = f'
  | .refused r, .refused r' => r = r'
  | _, _ => False

/-- The primes below 312 in order: the first 64 primes, 2 to 311 (R110). -/
def firstPrimes : List Nat := (List.range 312).filter fun n => decide (2 ≤ n ∧ ∀ d, d < n → 2 ≤ d → n % d ≠ 0)

end Sys2Proof.Machine
end

