-- ==== Sys2Proof/Certificates/Slice0/Obligations.lean ====
section
/-! DEFINITION. The statements about this machine. Each docstring says which rule of spec/ it formalises. Where a rule carries
the spec's own mark [decision: Dn] or [derived: ...], the docstring names it. -/

open Sys2Proof Sys2Proof.Machine

/-! ### Commands and their words -/

/-- The four legal words, and illegal ones, written out from the spec's encoding (R61, R70; 95_test_vectors.md section 2). A sanity
statement; the encoding is the spec's decision D2, D3, D11. -/
def Obligations.TableWordsDecode : Prop :=
  decode 0b00010000000000000000000000000000#32 = .ok .init ∧
  decode 0b00100000000000000000000000000000#32 = .ok (.update false) ∧
  decode 0b00101000000000000000000000000000#32 = .ok (.update true) ∧
  decode 0b00110000000000000000000000000000#32 = .ok .final ∧
  decode 0b00011000000000000000000000000000#32 = .error .dataPresent ∧
  decode 0b00111000000000000000000000000000#32 = .error .dataPresent ∧
  decode 0b00000000000000000000000000000000#32 = .error .reservedOp ∧
  decode 0b01000000000000000000000000000000#32 = .error .reservedOp ∧
  decode 0b11110000000000000000000000000000#32 = .error .reservedOp ∧
  decode 0b00010000000000000000000000000001#32 = .error .reservedBits ∧
  decode 0b00101100000000000000000000000000#32 = .error .reservedBits

/-- Decoding an encoded instruction gives it back, with P at both values (R69, R70; D2). -/
def Obligations.DecodeOfEncode : Prop :=
  ∀ i : Instr, decode (encode i) = .ok i

/-- R69 and R70 (the spec's D2, D11): decoding is exact on all 2^32 words. A word decodes to an instruction just when it is that
instruction's word, and it is ILLEGAL just when it is none of the four. -/
def Obligations.DecodingIsExact : Prop :=
  ∀ w : Word, (∀ i, decode w = .ok i ↔ encode i = w) ∧
    ((∃ r, decode w = .error r) ↔ w ∉ [0x10000000#32, 0x20000000#32, 0x28000000#32, 0x30000000#32])

/-! ### The platform's step -/

/-- R33, R180 (the spec's D14) for the values of every engine after reset, whatever NUM_ENGINES is (R7, R172); its default is 1.
That nothing is issued or answered yet is the model's choice (log 2, log 3), and so is that the fixed machine is the default one
(log 7). -/
def Obligations.ResetValues : Prop :=
  (∀ numEngines : Nat,
    (State.resetWith numEngines).engines =
      List.replicate numEngines { life := .uninit, buf := [], used := none, bitlen := none, digest := none } ∧
    (∀ e ∈ (State.resetWith numEngines).engines, ∀ a, e.buf.read a = none) ∧
    (State.resetWith numEngines).inputs = [] ∧ (State.resetWith numEngines).responses = []) ∧
  State.reset = State.resetWith 1

/-- R180, R181 (the spec's D14, D19): the reset input of an engine, in any state: its `life` becomes UNINIT, every other element of it
no value; no response; no other engine changes. -/
def Obligations.ResetInputClearsEngine : Prop :=
  ∀ (s : State) (n : Nat) (e : Engine) (rest : List HostEvent),
    s.inputs = .reset n :: rest → s.engines[n]? = some e →
    ∃ s', step s = .next s' ∧
      s'.engines[n]? = some { life := .uninit, buf := [], used := none, bitlen := none, digest := none } ∧
      (∀ m, m ≠ n → s'.engines[m]? = s.engines[m]?) ∧ s'.engines.length = s.engines.length ∧
      s'.inputs = rest ∧ s'.responses = s.responses

/-- R5, R174 (the spec's D1, D19): with no command issued the engines hold their state. That the model's step then answers the same
state is its choice (log 1). -/
def Obligations.IdleHoldsState : Prop :=
  ∀ s : State, s.inputs = [] → step s = .next s

/-- A step runs the decoded instruction (R6, R69): when the host's next event is a transaction issued in turn to an engine that
exists and its CMD word decodes to `i`, the step is `exec i`. Nothing is added around it: the engine has no program counter. -/
def Obligations.StepRunsDecodedCommand : Prop :=
  ∀ (s : State) (t : Transaction) (e : Engine) (i : Instr),
    Presents s t e → t.turn = .inTurn → decode t.command.cmd = .ok i → step s = exec i s

/-- R71, R163, R164 first check (the spec's D11, D12): any word but the four is answered ILLEGAL_COMMAND, code 3, in every `life`
state and whatever LEN and DATA are, and no engine changes. -/
def Obligations.IllegalWordAnswered : Prop :=
  ∀ (s : State) (t : Transaction) (e : Engine),
    Presents s t e → t.turn = .inTurn →
    t.command.cmd ∉ [0x10000000#32, 0x20000000#32, 0x28000000#32, 0x30000000#32] →
    ∃ s', step s = .next s' ∧ s'.engines = s.engines ∧ Answered s s' t.engine { resp := 3#32, digestOut := none }

/-- R175, R183 (the spec's D21): a command issued before the previous response, or by a second host, is refused. How the model
marks such a command is its choice (log 8). -/
def Obligations.DutyBreachRefused : Prop :=
  ∀ (s : State) (t : Transaction) (rest : List HostEvent), s.inputs = .issue t :: rest →
    (t.turn = .beforeResponse → step s = .refused .commandOutstanding) ∧
    (t.turn = .secondHost → step s = .refused .secondHost)

/-- The model's choice (log 7, log 19): an event addressed to an engine that does not exist is refused, and so is an instruction
executed with no transaction presented. -/
def Obligations.AbsentTargetRefused : Prop :=
  (∀ (s : State) (t : Transaction) (rest : List HostEvent),
    s.inputs = .issue t :: rest → t.turn = .inTurn → s.engines[t.engine]? = none →
      step s = .refused (.noSuchEngine t.engine) ∧ ∀ i, exec i s = .refused (.noSuchEngine t.engine)) ∧
  (∀ (s : State) (n : Nat) (rest : List HostEvent),
    s.inputs = .reset n :: rest → s.engines[n]? = none → step s = .refused (.noSuchEngine n)) ∧
  (∀ s : State, (∀ t, s.inputs.head? ≠ some (.issue t)) → ∀ i, exec i s = .refused .noTransaction)

/-! ### INIT -/

/-- R81 (its clauses on `buf` and on every `life` state are the spec's D15, D10): INIT completes in every state of the engine, with
any LEN and DATA. It sets `life`, `used`, `bitlen` and `H`, writes no byte of the buffer, answers OK, and changes no other
engine. -/
def Obligations.InitStartsMessage : Prop :=
  ∀ (s : State) (t : Transaction) (e : Engine), Presents s t e →
    ∃ s', exec .init s = .next s' ∧ Answered s s' t.engine { resp := 0#32, digestOut := none } ∧
      s'.engines[t.engine]? = some
        { life := .active, buf := e.buf, used := some 0, bitlen := some 0#64,
          digest := some { h0 := 0x6a09e667, h1 := 0xbb67ae85, h2 := 0x3c6ef372, h3 := 0xa54ff53a,
                           h4 := 0x510e527f, h5 := 0x9b05688c, h6 := 0x1f83d9ab, h7 := 0x5be0cd19 } }

/-- R49, R81's corner case: INIT twice in a row leaves the engines as INIT once does. -/
def Obligations.InitIsIdempotent : Prop :=
  ∀ (s : State) (t t' : Transaction) (e : Engine) (rest : List HostEvent),
    s.inputs = .issue t :: .issue t' :: rest → s.engines[t.engine]? = some e → t'.engine = t.engine →
    ∃ s₁ s₂, exec .init s = .next s₁ ∧ exec .init s₁ = .next s₂ ∧ s₂.engines = s₁.engines

/-! ### UPDATE -/

/-- R80: ABSORB_BYTE, whole. Below 63 buffered bytes the byte is appended and nothing else changes. With 63 the block is full:
it is compressed inside the step, `bitlen` goes up by 512 mod 2^64 and `used` to 0. One byte of the buffer is written, the one
at offset `used`. -/
def Obligations.AbsorbByteAppends : Prop :=
  ∀ (e : Engine) (tail : List Byte) (n : BitVec 64) (h : Digest) (b : Byte), e.Ready tail n h →
    ∃ e', absorbByte e b = .ok e' ∧ e'.life = .active ∧
      e'.buf.read tail.length = some b ∧ (∀ a, a ≠ tail.length → e'.buf.read a = e.buf.read a) ∧
      (tail.length < 63 → e'.used = some (tail.length + 1) ∧ e'.bitlen = some n ∧ e'.digest = some h) ∧
      (tail.length = 63 →
        e'.used = some 0 ∧ e'.bitlen = some (n + 512#64) ∧ e'.digest = some (compress h (beWords (tail ++ [b]))) ∧
        (n = BitVec.ofNat 64 (2 ^ 64 - 512) → e'.bitlen = some 0#64))

/-- R82, R164 checks 2 to 5, R161, R162 (the spec's D5, D8, D9, D12, D13): for both forms of UPDATE and any LEN and DATA, the first
check that holds decides, and an error changes no engine. -/
def Obligations.UpdateChecksInOrder : Prop :=
  ∀ (s : State) (t : Transaction) (e : Engine) (p : Bool), Presents s t e →
    (e.life ≠ .active → FailsWith (.update p) s t.engine 2#32) ∧
    (e.life = .active → t.command.len.toInt < 0 → FailsWith (.update p) s t.engine 1#32) ∧
    (e.life = .active → 0 < t.command.len.toInt → p = false → FailsWith (.update p) s t.engine 1#32) ∧
    (e.life = .active → 0 ≤ t.command.len.toInt → p = true → (t.command.data.length : Int) ≠ t.command.len.toInt →
      exec (.update p) s = .refused .dataLength)

/-- R82's corner case: with LEN = 0, UPDATE completes with OK and changes no engine, with data absent (whatever DATA is: R63, R66
ignore it) or present and empty. -/
def Obligations.EmptyUpdateChangesNothing : Prop :=
  ∀ (s : State) (t : Transaction) (e : Engine), Presents s t e → e.life = .active → t.command.len = 0#64 →
    (∃ s', exec (.update false) s = .next s' ∧ s'.engines = s.engines ∧
      Answered s s' t.engine { resp := 0#32, digestOut := none }) ∧
    (t.command.data = [] → ∃ s', exec (.update true) s = .next s' ∧ s'.engines = s.engines ∧
      Answered s s' t.engine { resp := 0#32, digestOut := none })

/-- R82 with R85 (derived from R80): UPDATE with data present completes on every ready engine when DATA has LEN bytes. It compresses,
in order, the full blocks of the buffered tail followed by DATA; `used` and `bitlen` count as R85 says; `life` stays
ACTIVE; no other engine changes. -/
def Obligations.UpdateAbsorbsData : Prop :=
  ∀ (s : State) (t : Transaction) (e : Engine) (tail : List Byte) (n : BitVec 64) (h : Digest),
    Presents s t e → e.Ready tail n h → (t.command.data.length : Int) = t.command.len.toInt →
    ∃ s' e', exec (.update true) s = .next s' ∧ Answered s s' t.engine { resp := 0#32, digestOut := none } ∧
      s'.engines[t.engine]? = some e' ∧ e'.life = .active ∧
      e'.used = some ((tail.length + t.command.data.length) % 64) ∧
      e'.bitlen = some (n + BitVec.ofNat 64 (512 * ((tail.length + t.command.data.length) / 64))) ∧
      e'.digest = some (hashBlocks ((tail.length + t.command.data.length) / 64) h (tail ++ t.command.data))

/-- R44, R80, R82: the frame of UPDATE on the buffer. DATA[k] is stored at offset `(used + k) mod 64`, of the bytes stored at one
offset the last stays, and every byte at an offset nothing is stored to is as before. -/
def Obligations.UpdateStoresInOrder : Prop :=
  ∀ (s : State) (t : Transaction) (e : Engine) (tail : List Byte) (n : BitVec 64) (h : Digest),
    Presents s t e → e.Ready tail n h → (t.command.data.length : Int) = t.command.len.toInt →
    ∃ s' e', exec (.update true) s = .next s' ∧ s'.engines[t.engine]? = some e' ∧
      (∀ k, k < t.command.data.length → t.command.data.length ≤ k + 64 →
        e'.buf.read ((tail.length + k) % 64) = t.command.data[k]?) ∧
      (∀ a, (∀ k, k < t.command.data.length → (tail.length + k) % 64 ≠ a) → e'.buf.read a = e.buf.read a)

/-- R84 (derived from R80, R82): UPDATE d1; UPDATE d2 and UPDATE d1 ++ d2 lead to the same engines. -/
def Obligations.UpdatesJoin : Prop :=
  ∀ (s j : State) (k : Nat) (e : Engine) (tail : List Byte) (n : BitVec 64) (h : Digest) (d₁ d₂ : List Byte)
    (rest rest' : List HostEvent),
    s.engines[k]? = some e → e.Ready tail n h → j.engines = s.engines → (d₁ ++ d₂).length < 2 ^ 63 →
    s.inputs = issueLines k [.updateBytes d₁, .updateBytes d₂] ++ rest →
    j.inputs = issueLines k [.updateBytes (d₁ ++ d₂)] ++ rest' →
    ∃ s' j', runSteps 2 s = some s' ∧ step j = .next j' ∧ s'.engines = j'.engines

/-! ### FINAL -/

/-- R162 (a), (b) (the spec's D8): FINAL outside ACTIVE is answered INVALID_STATE, code 2, with no digest, and no engine changes. -/
def Obligations.FinalOutsideActiveFails : Prop :=
  ∀ (s : State) (t : Transaction) (e : Engine),
    Presents s t e → e.life ≠ .active → FailsWith .final s t.engine 2#32

/-- R130, with R131, R132 (derived) and R35 (the spec's D18): FINAL completes on every ready engine, with any LEN and DATA. The final
digest is that of one or two blocks, the buffered tail and its padding with the total bit count; it is answered in the byte
order of R46 and stays in `H`; `bitlen` gains `8 * used` once; `life` is FINALIZED and `used` has no value; no other
engine changes. -/
def Obligations.FinalPadsAndAnswers : Prop :=
  ∀ (s : State) (t : Transaction) (e : Engine) (tail : List Byte) (n : BitVec 64) (h : Digest),
    Presents s t e → e.Ready tail n h →
    ∃ s' e' d, exec .final s = .next s' ∧
      Answered s s' t.engine { resp := 0#32, digestOut := some (digestBytes d) } ∧
      s'.engines[t.engine]? = some e' ∧ e'.life = .finalized ∧ e'.used = none ∧
      e'.bitlen = some (n + BitVec.ofNat 64 (8 * tail.length)) ∧ e'.digest = some d ∧
      d = hashBlocks (finalBlockCount tail.length) h
            (tail ++ padding tail.length (n + BitVec.ofNat 64 (8 * tail.length)))

/-- R130, R35 (the spec's D18), R132: the frame of FINAL on the buffer. It leaves the last block it compressed; when the length
fits, that block begins with the buffered tail, so the bytes below `used`, which FINAL does not store to, are as before. -/
def Obligations.FinalLeavesLastBlock : Prop :=
  ∀ (s : State) (t : Transaction) (e : Engine) (tail : List Byte) (n : BitVec 64) (h : Digest),
    Presents s t e → e.Ready tail n h →
    ∃ s' e', exec .final s = .next s' ∧ s'.engines[t.engine]? = some e' ∧
      (∀ a, a < 64 → e'.buf.read a =
        (tail ++ padding tail.length (n + BitVec.ofNat 64 (8 * tail.length)))[64 * (finalBlockCount tail.length - 1) + a]?) ∧
      (tail.length ≤ 55 → ∀ a, a < tail.length → e'.buf.read a = e.buf.read a) ∧
      (∀ a, 64 ≤ a → e'.buf.read a = e.buf.read a)

/-- R131, R132 (derived from R130): the padded message is a whole number of blocks, the number R131 counts. -/
def Obligations.PaddedMessageIsWholeBlocks : Prop :=
  ∀ d : List Byte, (padded d).length = 64 * (if d.length % 64 ≤ 55 then d.length / 64 + 1 else d.length / 64 + 2)

/-! ### Rules of the whole machine -/

/-- R165 (the spec's D13): a step that answers a STATUS other than OK changes no engine and gives no digest. -/
def Obligations.FailureChangesNothing : Prop :=
  ∀ (s s' : State) (n : Nat) (r : Response),
    step s = .next s' → s'.responses = s.responses ++ [{ engine := n, response := r }] → r.resp ≠ 0#32 →
    s'.engines = s.engines ∧ r.digestOut = none

/-- R22 with R180 (the spec's D7 to D10, D14): every step moves the `life` of every engine as the lifecycle table says, and in no
other way. -/
def Obligations.LifeFollowsTable : Prop :=
  ∀ (s s' : State) (ev : HostEvent) (rest : List HostEvent) (n : Nat) (e : Engine),
    s.inputs = ev :: rest → step s = .next s' → s.engines[n]? = some e →
    ∃ e', s'.engines[n]? = some e' ∧ e'.life = lifeAfter n ev e.life

/-- R137 (the spec's D8, D9): after FINAL no event but an INIT to the engine or its reset changes it, and no other command to it
succeeds or gives a digest. -/
def Obligations.FinalizedUntilInit : Prop :=
  ∀ (s s' : State) (n : Nat) (e : Engine),
    s.engines[n]? = some e → e.life = .finalized → step s = .next s' →
    s.inputs.head? ≠ some (.reset n) →
    (∀ t, s.inputs.head? = some (.issue t) → t.engine = n → decode t.command.cmd ≠ .ok .init) →
    s'.engines[n]? = some e ∧
      ∀ r, s'.responses = s.responses ++ [{ engine := n, response := r }] → r.digestOut = none ∧ r.resp ≠ 0#32

/-- R172 (the spec's D23): an event to one engine never changes another, and its outcome for the engine addressed does not depend on
the others: with any other engines beside it the response is the same. -/
def Obligations.EnginesAreIndependent : Prop :=
  ∀ (s s' s₂ : State) (ev : HostEvent) (rest : List HostEvent),
    s.inputs = ev :: rest → step s = .next s' →
    (∀ m, m ≠ ev.engine → s'.engines[m]? = s.engines[m]?) ∧
    (s₂.inputs = s.inputs → s₂.responses = s.responses → s₂.engines[ev.engine]? = s.engines[ev.engine]? →
      ∃ s₂', step s₂ = .next s₂' ∧ s₂'.responses = s'.responses ∧ s₂'.engines[ev.engine]? = s'.engines[ev.engine]?)

/-- R67 with R188 (the spec's D6) and R133: a command that is not refused gets exactly one response, from the engine it was issued
to; the digest is there exactly when the command is FINAL and STATUS is OK, and has exactly 32 bytes; and the host's other
events wait. -/
def Obligations.OneResponsePerCommand : Prop :=
  ∀ (s s' : State) (t : Transaction) (rest : List HostEvent),
    s.inputs = .issue t :: rest → step s = .next s' →
    ∃ r, s'.responses = s.responses ++ [{ engine := t.engine, response := r }] ∧ s'.inputs = rest ∧
      (r.digestOut.isSome = true ↔ decode t.command.cmd = .ok .final ∧ r.resp = 0#32) ∧
      (∀ d, r.digestOut = some d → d.length = 32)

/-- R67, R133 (the spec's D6 for the layout): every step keeps the shape of the responses: RESP[31:2] zero, and a digest only with
OK and of exactly 32 bytes. -/
def Obligations.ResponsesStayShaped : Prop :=
  ∀ s s' : State, (∀ a ∈ s.responses, a.response.shaped) → step s = .next s' → ∀ a ∈ s'.responses, a.response.shaped

/-- R29, R166 (the spec's D6): a response is not kept for a later read: no step reads the responses already given, it only adds to
them. -/
def Obligations.ResponsesAreNeverRead : Prop :=
  ∀ (s s' : State) (other : List Answer), step s = .next s' →
    ∃ out, s'.responses = s.responses ++ out ∧
      step { s with responses := other } = .next { s' with responses := other ++ out }

/-- R33, R36: the invariant holds right after reset, of the machine and of a platform of any NUM_ENGINES ≥ 1 (R7, D23). -/
def Obligations.ResetMeetsInvariant : Prop :=
  State.reset.Inv ∧ ∀ numEngines, 1 ≤ numEngines → (State.resetWith numEngines).Inv

/-- R24, R36 (derived), R33, R35 (the spec's D14, D18): from EVERY state that meets the invariant a step that goes on leads to one
that meets it: the buffer stays canonical, and an ACTIVE engine's `used`, `bitlen`, `H` and buffered bytes are those of
the message absorbed since INIT. -/
def Obligations.StepKeepsInvariant : Prop :=
  ∀ s s' : State, s.Inv → step s = .next s' → s'.Inv

/-- R32, R42 (the spec's D14): under the invariant no step faults: no rule reads an element that holds no value, and no access leaves
the buffer. -/
def Obligations.InvariantRulesOutFaults : Prop :=
  ∀ (s : State) (f : Fault), s.Inv → step s ≠ .fault f

/-- R34 (derived from R80, R130; D15): dead state is never observed. From two platforms that differ only in bytes at or beyond `used`
(and, outside ACTIVE, in elements no rule reads), a step has the same outcome: the same response or the same stop, and again
platforms that differ in dead state only. -/
def Obligations.DeadStateIsUnobservable : Prop :=
  ∀ s s' : State, s.SameLive s' → sameOutcome (step s) (step s')

/-! ### The Compression Transform -/

/-- R100 (its formula is supplied by the spec from general knowledge): bit `i` of rotr(x, n) is bit `(i + n) mod 32` of x, for every
amount the operation takes; and R100's corner cases and example. -/
def Obligations.RotrMovesBits : Prop :=
  (∀ (x : Word) (n : Nat) (h : 1 ≤ n ∧ n ≤ 31) (i : Nat), i < 32 →
    (rotr x n h).getLsbD i = x.getLsbD ((i + n) % 32)) ∧
  (∀ (n : Nat) (h : 1 ≤ n ∧ n ≤ 31), rotr 0#32 n h = 0#32 ∧ rotr 0xffffffff#32 n h = 0xffffffff#32) ∧
  rotr 0x00000001#32 1 = 0x80000000#32

/-- R101, R102, R103: σ0 and σ1 by their formulas, and so each bit of them in bits of x (by R100's bit rule), the shift filling
with zeros; and the rules' corner cases and examples. -/
def Obligations.SmallSigmaBits : Prop :=
  (∀ x : Word, sigma0 x = rotr x 7 ^^^ rotr x 18 ^^^ (x >>> 3) ∧ sigma1 x = rotr x 17 ^^^ rotr x 19 ^^^ (x >>> 10)) ∧
  (∀ (x : Word) (i : Nat), i < 32 →
    (sigma0 x).getLsbD i = (x.getLsbD ((i + 7) % 32) ^^ x.getLsbD ((i + 18) % 32) ^^ (decide (i + 3 ≤ 31) && x.getLsbD (i + 3))) ∧
    (sigma1 x).getLsbD i =
      (x.getLsbD ((i + 17) % 32) ^^ x.getLsbD ((i + 19) % 32) ^^ (decide (i + 10 ≤ 31) && x.getLsbD (i + 10)))) ∧
  (∀ (x : Word) (n i : Nat), n = 3 ∨ n = 10 → i < 32 →
    (x >>> n).getLsbD i = (decide (i + n ≤ 31) && x.getLsbD (i + n))) ∧
  0x80000000#32 >>> 3 = 0x10000000#32 ∧
  sigma0 0#32 = 0#32 ∧ sigma0 0xffffffff#32 = 0x1fffffff#32 ∧ sigma0 0x80000000#32 = 0x11002000#32 ∧
  sigma1 0#32 = 0#32 ∧ sigma1 0xffffffff#32 = 0x003fffff#32 ∧ sigma1 0x80000000#32 = 0x00205000#32

/-- R104, R105: Σ0 and Σ1 by their formulas, and so each bit of them in bits of x (by R100's bit rule); and the rules' corner
cases and examples. -/
def Obligations.BigSigmaBits : Prop :=
  (∀ x : Word, bigSigma0 x = rotr x 2 ^^^ rotr x 13 ^^^ rotr x 22 ∧ bigSigma1 x = rotr x 6 ^^^ rotr x 11 ^^^ rotr x 25) ∧
  (∀ (x : Word) (i : Nat), i < 32 →
    (bigSigma0 x).getLsbD i = (x.getLsbD ((i + 2) % 32) ^^ x.getLsbD ((i + 13) % 32) ^^ x.getLsbD ((i + 22) % 32)) ∧
    (bigSigma1 x).getLsbD i = (x.getLsbD ((i + 6) % 32) ^^ x.getLsbD ((i + 11) % 32) ^^ x.getLsbD ((i + 25) % 32))) ∧
  bigSigma0 0#32 = 0#32 ∧ bigSigma0 0xffffffff#32 = 0xffffffff#32 ∧ bigSigma0 0x6a09e667#32 = 0xce20b47e#32 ∧
  bigSigma1 0#32 = 0#32 ∧ bigSigma1 0xffffffff#32 = 0xffffffff#32 ∧ bigSigma1 0x510e527f#32 = 0x3587272b#32

/-- R106, R107: Ch and Maj by their formulas; Ch chooses and Maj votes, bit by bit; and the rules' corner cases and examples. -/
def Obligations.ChooseAndMajorityBits : Prop :=
  (∀ x y z : Word, ch x y z = (x &&& y) ^^^ (~~~x &&& z) ∧ maj x y z = (x &&& y) ^^^ (y &&& z) ^^^ (z &&& x)) ∧
  (∀ (x y z : Word) (i : Nat), i < 32 →
    (ch x y z).getLsbD i = (if x.getLsbD i then y.getLsbD i else z.getLsbD i) ∧
    (maj x y z).getLsbD i =
      decide (2 ≤ (x.getLsbD i).toNat + (y.getLsbD i).toNat + (z.getLsbD i).toNat)) ∧
  (∀ y z : Word, ch 0xffffffff#32 y z = y ∧ ch 0#32 y z = z ∧ maj 0xffffffff#32 0#32 z = z) ∧
  (∀ x z : Word, maj x x z = x) ∧
  ch 0x510e527f#32 0x9b05688c#32 0x1f83d9ab#32 = 0x1f85c98c#32 ∧
  maj 0x6a09e667#32 0xbb67ae85#32 0x3c6ef372#32 = 0x3a6fe667#32

/-- R112: the schedule of a block of 16 words has 64 words, the first 16 are the block's, and each later one obeys the recurrence; an
all-zero block gives zeros; and the example for "abc". -/
def Obligations.ScheduleFollowsRecurrence : Prop :=
  (∀ m : List Word, m.length = 16 →
    (scheduleFull m).length = 64 ∧
    (∀ t, t < 16 → (scheduleFull m)[t]? = m[t]?) ∧
    (∀ t, t < 48 → ∃ w₂ w₇ w₁₅ w₁₆, (scheduleFull m)[t + 14]? = some w₂ ∧ (scheduleFull m)[t + 9]? = some w₇ ∧
      (scheduleFull m)[t + 1]? = some w₁₅ ∧ (scheduleFull m)[t]? = some w₁₆ ∧
      (scheduleFull m)[t + 16]? = some (sigma1 w₂ + w₇ + sigma0 w₁₅ + w₁₆))) ∧
  scheduleFull (List.replicate 16 0#32) = List.replicate 64 0#32 ∧
  (scheduleFull (0x61626380#32 :: List.replicate 14 0#32 ++ [0x18#32]))[16]? = some 0x61626380#32 ∧
  (scheduleFull (0x61626380#32 :: List.replicate 14 0#32 ++ [0x18#32]))[17]? = some 0x000f0000#32

/-- R114: one round, every assignment reading the values before it; and the first round for "abc". -/
def Obligations.RoundFollowsItsEquations : Prop :=
  (∀ (v : Working) (k w : Word),
    (mixRound v k w).h = v.g ∧ (mixRound v k w).g = v.f ∧ (mixRound v k w).f = v.e ∧
    (mixRound v k w).e = v.d + (v.h + bigSigma1 v.e + ch v.e v.f v.g + k + w) ∧
    (mixRound v k w).d = v.c ∧ (mixRound v k w).c = v.b ∧ (mixRound v k w).b = v.a ∧
    (mixRound v k w).a = (v.h + bigSigma1 v.e + ch v.e v.f v.g + k + w) + (bigSigma0 v.a + maj v.a v.b v.c)) ∧
  roundT1 hInit.toWorking 0x428a2f98#32 0x61626380#32 = 0x54da50e8#32 ∧
  roundT2 hInit.toWorking = 0x08909ae5#32 ∧
  (mixRound hInit.toWorking 0x428a2f98#32 0x61626380#32).a = 0x5d6aebcd#32 ∧
  (mixRound hInit.toWorking 0x428a2f98#32 0x61626380#32).e = 0xfa2a4622#32

/-- R115, R116, R117: COMPRESS of any digest and any block of 16 words. There are working variables before each of the 64 rounds, the
digest's words first, each from the one before by R114 with `K[t]` and `W[t]`; after the last they are added word by word;
and the example for "abc". -/
def Obligations.CompressRunsAllRounds : Prop :=
  (∀ (h : Digest) (m : List Word), m.length = 16 →
    ∃ vs : List Working, vs.length = 65 ∧
      vs[0]? = some { a := h.h0, b := h.h1, c := h.h2, d := h.h3, e := h.h4, f := h.h5, g := h.h6, h := h.h7 } ∧
      (∀ t, t < 64 → ∃ v k w, vs[t]? = some v ∧ kRom[t]? = some k ∧ (scheduleFull m)[t]? = some w ∧
        vs[t + 1]? = some (mixRound v k w)) ∧
      ∃ v, vs[64]? = some v ∧ compress h m =
        { h0 := h.h0 + v.a, h1 := h.h1 + v.b, h2 := h.h2 + v.c, h3 := h.h3 + v.d,
          h4 := h.h4 + v.e, h5 := h.h5 + v.f, h6 := h.h6 + v.g, h7 := h.h7 + v.h }) ∧
  compress hInit (0x61626380#32 :: List.replicate 14 0#32 ++ [0x18#32]) =
    { h0 := 0xba7816bf, h1 := 0x8f01cfea, h2 := 0x414140de, h3 := 0x5dae2223,
      h4 := 0xb00361a3, h5 := 0x96177a9c, h6 := 0xb410ff61, h7 := 0xf20015ad }

/-- R113 (its window formula is supplied by the spec from general knowledge): ROLLING16 gives every round the word FULL64 gives
it, on every block. -/
def Obligations.RollingScheduleAgrees : Prop :=
  ∀ m : List Word, m.length = 16 → scheduleRolling m = scheduleFull m

/-- R119: the circular storage gives the rounds the same result as the copying one, for any rounds on any working variables. The
formula of CIRCULAR is the model's choice (log 12). -/
def Obligations.CircularRoundsAgree : Prop :=
  ∀ (v : Working) (kw : List (Word × Word)), roundsCircular v kw = roundsCopy v kw

/-- R7, R113, R119 (the spec's D22): no choice of SCHEDULE_STRATEGY and ROUND_STRATEGY is observable: all four give COMPRESS the
same result on every digest and block. -/
def Obligations.StorageIsUnobservable : Prop :=
  ∀ (ss : ScheduleStrategy) (rs : RoundStrategy) (h : Digest) (m : List Word), m.length = 16 →
    compressBy ss rs h m = compress h m

/-- R110 (supplied by the spec from general knowledge), for the tables of R108 and R109: K[i] is the first 32 bits of the fractional part of
the cube root of the (i+1)-th prime, for 64 primes, and H_INIT[i] of the square root, for 8. `c` is the floor of the root. -/
def Obligations.ConstantsAreRootsOfPrimes : Prop :=
  firstPrimes.length = 64 ∧ kRom.length = 64 ∧
  (∀ i, i < 64 → ∃ p c, firstPrimes[i]? = some p ∧ c ^ 3 ≤ p * 2 ^ 96 ∧ p * 2 ^ 96 < (c + 1) ^ 3 ∧
    kRom[i]? = some (BitVec.ofNat 32 c)) ∧
  (∀ i, i < 8 → ∃ p c, firstPrimes[i]? = some p ∧ c ^ 2 ≤ p * 2 ^ 64 ∧ p * 2 ^ 64 < (c + 1) ^ 2 ∧
    hInit.words[i]? = some (BitVec.ofNat 32 c))

/-! ### The block buffer and byte order -/

/-- R41: word `j` of the buffer is the bytes at 4j to 4j+3, the lowest offset most significant; with its formula and its example. -/
def Obligations.BufferWordsAreBigEndian : Prop :=
  (∀ (m : Memory) (j : Nat) (b₀ b₁ b₂ b₃ : Byte), j ≤ 15 →
    m.read (4 * j) = some b₀ → m.read (4 * j + 1) = some b₁ → m.read (4 * j + 2) = some b₂ → m.read (4 * j + 3) = some b₃ →
    bufWord m j = .ok (b₀ ++ b₁ ++ b₂ ++ b₃) ∧
    bufWord m j = .ok (b₀.setWidth 32 <<< 24 ||| b₁.setWidth 32 <<< 16 ||| b₂.setWidth 32 <<< 8 ||| b₃.setWidth 32)) ∧
  bufWord [(0, 0x61#8), (1, 0x62#8), (2, 0x63#8), (3, 0x80#8)] 0 = .ok 0x61626380#32

/-- R42, R43 (the spec's D16: a write replaces): a write of n bytes inside the buffer succeeds, stores byte `v[8(n-1-k)+7 : 8(n-1-k)]`
at `addr + k`, reads back as v, changes no other byte and keeps the canonical form. -/
def Obligations.MemWriteReadsBack : Prop :=
  ∀ (m : Memory) (addr n : Nat) (v : BitVec (8 * n)), addr + n ≤ 64 →
    ∃ m', memWrite m addr n v = .ok m' ∧ memRead m' addr n = .ok v ∧
      (∀ k, k < n → m'.read (addr + k) = some (v.extractLsb' (8 * (n - 1 - k)) 8)) ∧
      (∀ a, a < addr ∨ addr + n ≤ a → m'.read a = m.read a) ∧
      (m.wf = true → m'.wf = true)

/-- R32, R40, R42 (the spec's D14): an access outside 0..63 faults, and so does the read of a byte that holds no value. Which fault it
is is the model's choice (log 16). -/
def Obligations.MissingBytesFault : Prop :=
  (∀ (m : Memory) (a : Nat) (b : Byte), 64 ≤ a →
    readByte m a = .error (.outsideBuffer a) ∧ writeByte m a b = .error (.outsideBuffer a)) ∧
  (∀ (m : Memory) (a : Nat), a < 64 → m.read a = none → readByte m a = .error (.readNoValue (.bufByte a)))

/-- R45: the length field is written big-endian to offsets 56 to 63: buf[56] gets bits [63:56] and buf[63] bits [7:0], word 14 the
upper half and word 15 the lower. -/
def Obligations.LengthFieldIsBigEndian : Prop :=
  ∀ (m : Memory) (bitlen : BitVec 64), ∃ m', memWrite m 56 8 bitlen = .ok m' ∧
    m'.read 56 = some (bitlen.extractLsb' 56 8) ∧ m'.read 63 = some (bitlen.extractLsb' 0 8) ∧
    (∀ k, k < 8 → m'.read (56 + k) = some (bitlen.extractLsb' (56 - 8 * k) 8)) ∧
    bufWord m' 14 = .ok (bitlen.extractLsb' 32 32) ∧ bufWord m' 15 = .ok (bitlen.extractLsb' 0 32)

/-- R46: DIGEST_OUT is 32 bytes, the words of H in order 0..7, each most significant byte first. -/
def Obligations.DigestIsBigEndian : Prop :=
  ∀ h : Digest, (digestBytes h).length = 32 ∧
    h.words = [h.h0, h.h1, h.h2, h.h3, h.h4, h.h5, h.h6, h.h7] ∧
    ∀ i k w, k < 4 → h.words[i]? = some w → (digestBytes h)[4 * i + k]? = some (w.extractLsb' (24 - 8 * k) 8)

/-- The canonical form (log 18) means what it should: two buffers in it that read alike at every offset are equal. -/
def Obligations.CanonicalBuffersAreEqual : Prop :=
  ∀ m m' : Memory, m.wf = true → m'.wf = true → (∀ a, m.read a = m'.read a) → m = m'

/-! ### The whole engine -/

/-- R36 (derived from R80, R81, R82, R117), as what the commands do to the message an engine holds: INIT makes it empty in any
state, and UPDATE appends DATA to it. -/
def Obligations.CommandsTrackMessage : Prop :=
  (∀ (s : State) (t : Transaction) (e : Engine), Presents s t e →
    ∃ s' e', exec .init s = .next s' ∧ s'.engines[t.engine]? = some e' ∧ e'.Holds []) ∧
  (∀ (s : State) (t : Transaction) (e : Engine) (msg : List Byte), Presents s t e → e.Holds msg →
    (t.command.data.length : Int) = t.command.len.toInt →
    ∃ s' e', exec (.update true) s = .next s' ∧ s'.engines[t.engine]? = some e' ∧ e'.Holds (msg ++ t.command.data))

/-- R130, R132 (derived), R139: FINAL of an engine that holds a message answers the digest of the message padded as a whole, the bit
count taken mod 2^64. -/
def Obligations.FinalAnswersDigestOfMessage : Prop :=
  ∀ (s : State) (t : Transaction) (e : Engine) (msg : List Byte), Presents s t e → e.Holds msg →
    ∃ s', exec .final s = .next s' ∧ Answered s s' t.engine { resp := 0#32, digestOut := some (engineFn msg) }

/-- R134 (derived from R81, R82, R130): INIT; UPDATE d; FINAL, issued to any engine in any state, is answered OK, OK and OK with the
digest of d, and what the engine held before does not matter. -/
def Obligations.HashFromAnyState : Prop :=
  ∀ (s : State) (n : Nat) (e : Engine) (d : List Byte) (rest : List HostEvent),
    s.engines[n]? = some e → d.length < 2 ^ 63 → s.inputs = issueLines n (pseudoHash d) ++ rest →
    ∃ s', runSteps 3 s = some s' ∧ s'.inputs = rest ∧
      s'.responses = s.responses ++
        [{ engine := n, response := { resp := 0#32, digestOut := none } },
         { engine := n, response := { resp := 0#32, digestOut := none } },
         { engine := n, response := { resp := 0#32, digestOut := some (engineFn d) } }]

/-- R136 (derived from R84): streaming equivalence. INIT, any sequence of UPDATEs of any sizes, zero included, and FINAL answer OK to
each UPDATE and the digest of the pieces joined. -/
def Obligations.StreamingEquivalence : Prop :=
  ∀ (s : State) (n : Nat) (e : Engine) (ds : List (List Byte)) (rest : List HostEvent),
    s.engines[n]? = some e → (∀ d ∈ ds, d.length < 2 ^ 63) →
    s.inputs = issueLines n (.init :: ds.map .updateBytes ++ [.final]) ++ rest →
    ∃ s', runSteps (ds.length + 2) s = some s' ∧ s'.inputs = rest ∧
      s'.responses = s.responses ++
        List.replicate (ds.length + 1) { engine := n, response := { resp := 0#32, digestOut := none } } ++
        [{ engine := n, response := { resp := 0#32, digestOut := some (engineFn ds.flatten) } }]

/-- R74 (the spec's D24): UPDATE.CHUNKS k splits a message into consecutive pieces of 1 to k bytes, and INIT; UPDATE.CHUNKS k, d;
FINAL answers the digest HASH d answers. -/
def Obligations.ChunkedHashAgrees : Prop :=
  ∀ (k : Nat) (d : List Byte), 1 ≤ k →
    (chunksOf k d.length d).flatten = d ∧ (∀ c ∈ chunksOf k d.length d, 1 ≤ c.length ∧ c.length ≤ k) ∧
    ∀ (s : State) (n : Nat) (e : Engine) (rest : List HostEvent),
      s.engines[n]? = some e → d.length < 2 ^ 63 →
      s.inputs = issueLines n (.init :: pseudoUpdateChunks k d ++ [.final]) ++ rest →
      ∃ s', runSteps ((pseudoUpdateChunks k d).length + 2) s = some s' ∧
        s'.responses.getLast? = some { engine := n, response := { resp := 0#32, digestOut := some (engineFn d) } }

/-- R135: ENGINE of the empty message, run from any state, is the value the rule gives. -/
def Obligations.EmptyMessageDigest : Prop :=
  ∀ (s : State) (n : Nat) (e : Engine), s.engines[n]? = some e → s.inputs = issueLines n (pseudoHash []) →
    ∃ s', runSteps 3 s = some s' ∧
      s'.responses.getLast? = some
        { engine := n
          response :=
            { resp := 0#32
              digestOut := some
                [0xe3, 0xb0, 0xc4, 0x42, 0x98, 0xfc, 0x1c, 0x14, 0x9a, 0xfb, 0xf4, 0xc8, 0x99, 0x6f, 0xb9, 0x24,
                 0x27, 0xae, 0x41, 0xe4, 0x64, 0x9b, 0x93, 0x4c, 0xa4, 0x95, 0x99, 0x1b, 0x78, 0x52, 0xb8, 0x55] } }
end

