-- ==== Sys2Proof/Laws/Memory.lean ====
section
/-! SUPPORT. The block buffer: reading after writing, the canonical form, runs of bytes, and words. -/

namespace Sys2Proof.Machine

/-! ### One byte -/

theorem Memory.read_write (m : Memory) (a x : Nat) (b : Byte) :
    (m.write a b).read x = if x = a then some b else m.read x := by
  induction m with
  | nil => simp only [Memory.write, Memory.read]; split <;> split <;> simp_all
  | cons p m ih =>
    obtain ⟨y, v⟩ := p
    simp only [Memory.write]
    split
    · simp only [Memory.read]
      by_cases hx : a = x
      · simp [hx]
      · simp [hx, Ne.symm hx]
    · split
      · rename_i h
        subst h
        simp only [Memory.read]
        by_cases hx : a = x
        · simp [hx]
        · simp [hx, Ne.symm hx]
      · rename_i h1 h2
        simp only [Memory.read, ih]
        by_cases hy : y = x
        · have : x ≠ a := by omega
          simp [hy, this]
        · simp [hy]

theorem Memory.read_write_same (m : Memory) (a : Nat) (b : Byte) : (m.write a b).read a = some b := by
  simp [Memory.read_write]

theorem Memory.read_write_other (m : Memory) {a x : Nat} (b : Byte) (h : x ≠ a) : (m.write a b).read x = m.read x := by
  simp [Memory.read_write, h]

theorem Memory.risingFrom_write {lo : Nat} {m : Memory} {a : Nat} (b : Byte) (h : Memory.risingFrom lo m = true)
    (hlo : lo ≤ a) (ha : a < 64) : Memory.risingFrom lo (m.write a b) = true := by
  induction m generalizing lo with
  | nil => simp [Memory.write, Memory.risingFrom, hlo, ha]
  | cons p m ih =>
    obtain ⟨x, v⟩ := p
    simp only [Memory.risingFrom, Bool.and_eq_true, decide_eq_true_eq] at h
    obtain ⟨⟨hx, hx64⟩, hm⟩ := h
    simp only [Memory.write]
    split
    · simp only [Memory.risingFrom, Bool.and_eq_true, decide_eq_true_eq]
      exact ⟨⟨hlo, ha⟩, ⟨by omega, hx64⟩, hm⟩
    · split
      · rename_i h
        subst h
        simp only [Memory.risingFrom, Bool.and_eq_true, decide_eq_true_eq]
        exact ⟨⟨hlo, ha⟩, hm⟩
      · simp only [Memory.risingFrom, Bool.and_eq_true, decide_eq_true_eq]
        exact ⟨⟨hx, hx64⟩, ih hm (by omega)⟩

/-- A write keeps the canonical form. -/
theorem Memory.wf_write {m : Memory} {a : Nat} (b : Byte) (h : m.wf = true) (ha : a < 64) : (m.write a b).wf = true :=
  Memory.risingFrom_write b h (Nat.zero_le a) ha

theorem readByte_eq_ok {m : Memory} {a : Nat} {b : Byte} : readByte m a = .ok b ↔ a < 64 ∧ m.read a = some b := by
  unfold readByte
  split
  · split <;> simp_all
  · simp_all

theorem writeByte_eq_ok {m m' : Memory} {a : Nat} {b : Byte} :
    writeByte m a b = .ok m' ↔ a < 64 ∧ m' = m.write a b := by
  unfold writeByte
  split <;> simp_all [eq_comm]

/-! ### Runs of bytes -/

/-- Everything a write of a run of bytes inside the buffer does: it succeeds, the run reads back, every other offset is as
before, and the canonical form is kept. -/
theorem writeBytes_spec (bs : List Byte) {m : Memory} {a : Nat} (h : a + bs.length ≤ 64) :
    ∃ m', writeBytes m a bs = .ok m' ∧
      (∀ x, m'.read x = if a ≤ x ∧ x < a + bs.length then bs[x - a]? else m.read x) ∧
      (m.wf = true → m'.wf = true) := by
  induction bs generalizing m a with
  | nil =>
    refine ⟨m, rfl, fun x => ?_, id⟩
    rw [if_neg (by simp only [List.length_nil]; omega)]
  | cons b bs ih =>
    simp only [List.length_cons] at h
    have ha : a < 64 := by omega
    obtain ⟨m', hw, hr, hwf⟩ := ih (m := m.write a b) (a := a + 1) (by omega)
    refine ⟨m', ?_, fun x => ?_, fun hm => hwf (Memory.wf_write b hm ha)⟩
    · simp [writeBytes, writeByte, ha, hw, Except.bind, bind]
    · rw [hr x, Memory.read_write]
      by_cases hx : x = a
      · subst hx
        rw [if_neg (by omega), if_pos rfl, if_pos (by simp), Nat.sub_self]
        rfl
      · by_cases hin : a + 1 ≤ x ∧ x < a + 1 + bs.length
        · rw [if_pos hin, if_pos (by simp; omega), show x - a = (x - (a + 1)) + 1 by omega]
          rfl
        · rw [if_neg hin, if_neg hx, if_neg (by simp; omega)]

theorem writeBytes_ok_spec {bs : List Byte} {m m' : Memory} {a : Nat} (hw : writeBytes m a bs = .ok m') :
    a + bs.length ≤ 64 ∨ bs = [] := by
  induction bs generalizing m a with
  | nil => exact .inr rfl
  | cons b bs ih =>
    left
    simp only [writeBytes, bind, Except.bind] at hw
    split at hw
    · cases hw
    · rename_i m₁ h₁
      have ha := (writeByte_eq_ok.mp h₁).1
      rcases ih hw with h | h
      · simp only [List.length_cons]; omega
      · subst h; simp only [List.length_cons, List.length_nil]; omega

/-- Reading a run of bytes that all hold values. -/
theorem readBytes_of_reads (bs : List Byte) {m : Memory} {a : Nat} (h : a + bs.length ≤ 64)
    (hr : ∀ i, i < bs.length → m.read (a + i) = bs[i]?) : readBytes m a bs.length = .ok bs := by
  induction bs generalizing a with
  | nil => rfl
  | cons b bs ih =>
    simp only [List.length_cons] at h hr
    have h0 : readByte m a = .ok b := readByte_eq_ok.mpr ⟨by omega, by simpa using hr 0 (by omega)⟩
    have h1 := ih (a := a + 1) (by omega) fun i hi => by
      rw [show a + 1 + i = a + (i + 1) by omega, hr (i + 1) (by omega)]
      rfl
    simp [readBytes, h0, h1, bind, Except.bind]

/-- Reading depends on the bytes read and on nothing else. -/
theorem readBytes_congr {m m' : Memory} {n a : Nat} (h : ∀ x, a ≤ x → x < a + n → m.read x = m'.read x) :
    readBytes m a n = readBytes m' a n := by
  induction n generalizing a with
  | zero => rfl
  | succ n ih =>
    have h0 : readByte m a = readByte m' a := by simp only [readByte, h a (by omega) (by omega)]
    simp only [readBytes, h0, ih (a := a + 1) fun x h1 h2 => h x (by omega) (by omega)]

/-! ### Big-endian values -/

@[simp] theorem splitBE_length (n : Nat) {w : Nat} (v : BitVec w) : (splitBE n v).length = n := by
  simp [splitBE]

theorem splitBE_get {n k : Nat} {w : Nat} (v : BitVec w) (h : k < n) :
    (splitBE n v)[k]? = some (v.extractLsb' (8 * (n - 1 - k)) 8) := by
  simp [splitBE, h]

theorem splitBE_succ (n : Nat) {w : Nat} (v : BitVec w) : splitBE (n + 1) v = v.extractLsb' (8 * n) 8 :: splitBE n v := by
  simp only [splitBE, List.range_succ_eq_map, List.map_cons, List.map_map]
  congr 1
  apply List.map_congr_left
  intro k _
  simp only [Function.comp]
  congr 2
  omega

theorem joinBE_fold (bs : List Byte) (n : Nat) :
    bs.foldl (fun n b => n * 256 + b.toNat) n = n * 256 ^ bs.length + joinBE bs := by
  induction bs generalizing n with
  | nil => simp [joinBE]
  | cons b bs ih =>
    simp only [joinBE, List.foldl_cons, List.length_cons]
    rw [ih, ih (0 * 256 + b.toNat)]
    ring

theorem joinBE_cons (b : Byte) (bs : List Byte) : joinBE (b :: bs) = b.toNat * 256 ^ bs.length + joinBE bs := by
  rw [joinBE, List.foldl_cons, joinBE_fold]
  simp

/-- The bytes of a value, joined, are the value. -/
theorem joinBE_splitBE (n : Nat) {w : Nat} (v : BitVec w) : joinBE (splitBE n v) = v.toNat % 256 ^ n := by
  induction n with
  | zero => simp [splitBE, joinBE, Nat.mod_one]
  | succ n ih =>
    rw [splitBE_succ, joinBE_cons, ih, splitBE_length]
    have h8 : (v.extractLsb' (8 * n) 8).toNat = v.toNat / 256 ^ n % 256 := by
      rw [BitVec.extractLsb'_toNat, Nat.shiftRight_eq_div_pow, show (2 : Nat) ^ (8 * n) = 256 ^ n by rw [Nat.pow_mul]]
    rw [h8, pow_succ, Nat.mod_mul]
    ring

/-! ### Words of the buffer -/

/-- A buffer word whose four bytes hold values (R41). -/
theorem bufWord_of_reads {m : Memory} {j : Nat} {b₀ b₁ b₂ b₃ : Byte} (hj : j < 16) (h₀ : m.read (4 * j) = some b₀)
    (h₁ : m.read (4 * j + 1) = some b₁) (h₂ : m.read (4 * j + 2) = some b₂) (h₃ : m.read (4 * j + 3) = some b₃) :
    bufWord m j = .ok (b₀ ++ b₁ ++ b₂ ++ b₃) := by
  have hr : readBytes m (4 * j) 4 = .ok [b₀, b₁, b₂, b₃] :=
    readBytes_of_reads [b₀, b₁, b₂, b₃] (by simp; omega) fun i hi => by
      simp only [List.length_cons, List.length_nil] at hi
      obtain rfl | rfl | rfl | rfl : i = 0 ∨ i = 1 ∨ i = 2 ∨ i = 3 := by omega
      all_goals simp_all
  simp only [bufWord, memRead, hr, bind, Except.bind]
  congr 1
  apply BitVec.eq_of_toNat_eq
  simp only [BitVec.toNat_ofNat, joinBE, List.foldl_cons, List.foldl_nil, BitVec.toNat_append]
  rw [← Nat.shiftLeft_add_eq_or_of_lt b₁.isLt, ← Nat.shiftLeft_add_eq_or_of_lt b₂.isLt,
    ← Nat.shiftLeft_add_eq_or_of_lt b₃.isLt]
  simp only [Nat.shiftLeft_eq]
  have := b₀.isLt; have := b₁.isLt; have := b₂.isLt; have := b₃.isLt
  omega

/-- A buffer word depends on its four bytes and on nothing else. -/
theorem bufWord_congr {m m' : Memory} {j : Nat} (h : ∀ x, 4 * j ≤ x → x < 4 * j + 4 → m.read x = m'.read x) :
    bufWord m j = bufWord m' j := by
  simp only [bufWord, memRead, readBytes_congr h]

theorem wordsFrom_of_reads (n : Nat) {m : Memory} {j : Nat} (bs : List Byte) (hn : j + n ≤ 16) (hlen : bs.length = 4 * n)
    (hr : ∀ i, i < bs.length → m.read (4 * j + i) = bs[i]?) : wordsFrom m j n = .ok (beWords bs) := by
  induction n generalizing j bs with
  | zero =>
    obtain rfl : bs = [] := List.eq_nil_of_length_eq_zero (by omega)
    rfl
  | succ n ih =>
    match bs, hlen, hr with
    | b₀ :: b₁ :: b₂ :: b₃ :: rest, hlen, hr =>
      simp only [List.length_cons] at hlen hr
      have hw : bufWord m j = .ok (b₀ ++ b₁ ++ b₂ ++ b₃) :=
        bufWord_of_reads (by omega) (by simpa using hr 0 (by omega)) (by simpa using hr 1 (by omega))
          (by simpa using hr 2 (by omega)) (by simpa using hr 3 (by omega))
      have hrest := ih (j := j + 1) rest (by omega) (by omega) fun i hi => by
        rw [show 4 * (j + 1) + i = 4 * j + (i + 4) by omega, hr (i + 4) (by omega)]
        rfl
      simp [wordsFrom, hw, hrest, beWords, bind, Except.bind]

/-- COMPRESS's block input from a full buffer (R111). -/
theorem blockWords_of_reads {m : Memory} (bs : List Byte) (hlen : bs.length = 64)
    (hr : ∀ i, i < 64 → m.read i = bs[i]?) : blockWords m = .ok (beWords bs) :=
  wordsFrom_of_reads 16 bs (by omega) (by omega) fun i hi => by simpa using hr i (by omega)

theorem wordsFrom_congr {m m' : Memory} {n j : Nat} (h : ∀ x, 4 * j ≤ x → x < 4 * (j + n) → m.read x = m'.read x) :
    wordsFrom m j n = wordsFrom m' j n := by
  induction n generalizing j with
  | zero => rfl
  | succ n ih =>
    simp only [wordsFrom, bufWord_congr (m := m) (m' := m') fun x h1 h2 => h x h1 (by omega),
      ih (j := j + 1) fun x h1 h2 => h x (by omega) (by omega)]

/-- The block input depends on the 64 bytes and on nothing else. -/
theorem blockWords_congr {m m' : Memory} (h : ∀ x, x < 64 → m.read x = m'.read x) : blockWords m = blockWords m' :=
  wordsFrom_congr fun x _ h2 => h x (by omega)

end Sys2Proof.Machine
end

