-- ==== Sys2Proof/Laws/State.lean ====
section
/-! SUPPORT. What each update of the state does to each field: one lemma per field per update, true by rfl. -/

namespace Sys2Proof.Machine

@[simp] theorem answer_engines (s : State) (n : Nat) (r : Response) : (answer s n r).engines = s.engines := rfl
@[simp] theorem answer_inputs (s : State) (n : Nat) (r : Response) : (answer s n r).inputs = s.inputs.tail := rfl
@[simp] theorem answer_responses (s : State) (n : Nat) (r : Response) :
    (answer s n r).responses = s.responses ++ [{ engine := n, response := r }] := rfl

@[simp] theorem respond_engines (s : State) (n : Nat) (e : Engine) (r : Response) :
    (respond s n e r).engines = s.engines.set n e := rfl
@[simp] theorem respond_inputs (s : State) (n : Nat) (e : Engine) (r : Response) :
    (respond s n e r).inputs = s.inputs.tail := rfl
@[simp] theorem respond_responses (s : State) (n : Nat) (e : Engine) (r : Response) :
    (respond s n e r).responses = s.responses ++ [{ engine := n, response := r }] := rfl

@[simp] theorem initEngine_life (e : Engine) : (initEngine e).life = .active := rfl
@[simp] theorem initEngine_buf (e : Engine) : (initEngine e).buf = e.buf := rfl
@[simp] theorem initEngine_used (e : Engine) : (initEngine e).used = some 0 := rfl
@[simp] theorem initEngine_bitlen (e : Engine) : (initEngine e).bitlen = some 0#64 := rfl
@[simp] theorem initEngine_digest (e : Engine) : (initEngine e).digest = some hInit := rfl

@[simp] theorem resetWith_engines (n : Nat) : (State.resetWith n).engines = List.replicate n Engine.reset := rfl
@[simp] theorem resetWith_inputs (n : Nat) : (State.resetWith n).inputs = [] := rfl
@[simp] theorem resetWith_responses (n : Nat) : (State.resetWith n).responses = [] := rfl
/-- The host's machine is the platform with the default number of engines. -/
theorem platform_default : platform Config.numEngines = Sys2Proof.core := rfl

@[simp] theorem engineReset_life : Engine.reset.life = .uninit := rfl
@[simp] theorem engineReset_buf : Engine.reset.buf = [] := rfl
@[simp] theorem engineReset_used : Engine.reset.used = none := rfl
@[simp] theorem engineReset_bitlen : Engine.reset.bitlen = none := rfl
@[simp] theorem engineReset_digest : Engine.reset.digest = none := rfl

@[simp] theorem withFetchWord_engines (s : State) (nbits w : Nat) : (s.withFetchWord nbits w).engines = s.engines := rfl
@[simp] theorem withFetchWord_responses (s : State) (nbits w : Nat) :
    (s.withFetchWord nbits w).responses = s.responses := rfl
@[simp] theorem withFetchWord_inputs (s : State) (nbits w : Nat) :
    (s.withFetchWord nbits w).inputs = .issue (tableTransaction nbits w) :: s.inputs := rfl

@[simp] theorem plainResponse_resp (st : Status) : (plainResponse st).resp = st.resp := rfl
@[simp] theorem plainResponse_digestOut (st : Status) : (plainResponse st).digestOut = none := rfl
@[simp] theorem digestResponse_resp (d : List Byte) : (digestResponse d).resp = Status.resp .ok := rfl
@[simp] theorem digestResponse_digestOut (d : List Byte) : (digestResponse d).digestOut = some d := rfl

end Sys2Proof.Machine
end

