-- ==== Sys2Proof/Laws/Ops.lean ====
section
/-! SUPPORT. What each shared operation, each instruction and a step can do, said once: later proofs cite these inversion
lemmas and unfold nothing. -/

namespace Sys2Proof.Machine

/-! ### The transaction at work -/

theorem withTransaction_of_presents {s : State} {t : Transaction} {e : Engine} (h : Presents s t e)
    (k : Transaction → Engine → Host.Outcome State Fault Refusal) : withTransaction s k = k t e := by
  obtain ⟨hi, he⟩ := h
  obtain ⟨engines, inputs, responses⟩ := s
  cases inputs with
  | nil => simp at hi
  | cons ev rest =>
    simp only [List.head?_cons, Option.some.injEq] at hi
    subst hi
    simp only at he
    simp [withTransaction, he]

theorem withTransaction_next {s s' : State} {k : Transaction → Engine → Host.Outcome State Fault Refusal}
    (h : withTransaction s k = .next s') : ∃ t e, Presents s t e ∧ k t e = .next s' := by
  unfold withTransaction at h
  split at h
  · rename_i t rest hin
    split at h
    · rename_i e he
      exact ⟨t, e, ⟨by simp [hin], he⟩, h⟩
    · cases h
  · cases h
  · cases h

theorem withTransaction_fault {s : State} {f : Fault} {k : Transaction → Engine → Host.Outcome State Fault Refusal}
    (h : withTransaction s k = .fault f) : ∃ t e, Presents s t e ∧ k t e = .fault f := by
  unfold withTransaction at h
  split at h
  · rename_i t rest hin
    split at h
    · rename_i e he
      exact ⟨t, e, ⟨by simp [hin], he⟩, h⟩
    · cases h
  · cases h
  · cases h

theorem engine_lt_of_presents {s : State} {t : Transaction} {e : Engine} (h : Presents s t e) :
    t.engine < s.engines.length := (List.getElem?_eq_some_iff.mp h.2).1

/-- An answer with the engine's new state touches that engine only. -/
theorem respond_answered (s : State) (n : Nat) (e : Engine) (r : Response) : Answered s (respond s n e r) n r where
  inputs := rfl
  responses := rfl
  count := by simp
  others := fun m hm => by simp [List.getElem?_set_ne (Ne.symm hm)]

/-- An error answer touches no engine. -/
theorem answer_answered (s : State) (n : Nat) (r : Response) : Answered s (answer s n r) n r where
  inputs := rfl
  responses := rfl
  count := rfl
  others := fun _ _ => rfl

theorem respond_engine {s : State} {t : Transaction} {e : Engine} (h : Presents s t e) (e' : Engine) (r : Response) :
    (respond s t.engine e' r).engines[t.engine]? = some e' := by
  simp [engine_lt_of_presents h]

/-! ### The instructions -/

theorem execInit_next {s s' : State} (h : execInit s = .next s') :
    ∃ t e, Presents s t e ∧ s' = respond s t.engine (initEngine e) (plainResponse .ok) := by
  obtain ⟨t, e, hp, hk⟩ := withTransaction_next h
  exact ⟨t, e, hp, by simpa using hk.symm⟩

/-- UPDATE that goes on to a next state: an error answer, or the bytes absorbed. -/
theorem execUpdate_next {p : Bool} {s s' : State} (h : execUpdate p s = .next s') :
    ∃ t e, Presents s t e ∧
      ((e.life ≠ .active ∧ s' = answer s t.engine (plainResponse .invalidState)) ∨
       (e.life = .active ∧ s' = answer s t.engine (plainResponse .invalidArgument)) ∨
       (e.life = .active ∧ negativeLen t.command = false ∧ nullNonzero p t.command = false ∧
          dataMismatch p t.command = false ∧
          ∃ e', absorb e (messageBytes p t.command) = .ok e' ∧ s' = respond s t.engine e' (plainResponse .ok))) := by
  obtain ⟨t, e, hp, hk⟩ := withTransaction_next h
  refine ⟨t, e, hp, ?_⟩
  by_cases hl : e.life = .active
  · simp only [hl, ne_eq, not_true_eq_false, if_false, raise] at hk
    split at hk
    · exact .inr (.inl ⟨hl, by simpa using hk.symm⟩)
    · split at hk
      · exact .inr (.inl ⟨hl, by simpa using hk.symm⟩)
      · split at hk
        · cases hk
        · rename_i h1 h2 h3
          split at hk
          · rename_i e' he
            exact .inr (.inr ⟨hl, by simpa using h1, by simpa using h2, by simpa using h3, e', he, by simpa using hk.symm⟩)
          · cases hk
  · simp only [hl, ne_eq, not_false_eq_true, if_true, raise] at hk
    exact .inl ⟨hl, by simpa using hk.symm⟩

/-- FINAL that goes on to a next state: an error answer, or the digest. -/
theorem execFinal_next {s s' : State} (h : execFinal s = .next s') :
    ∃ t e, Presents s t e ∧
      ((e.life ≠ .active ∧ s' = answer s t.engine (plainResponse .invalidState)) ∨
       (e.life = .active ∧ ∃ e' d, finalize e = .ok (e', d) ∧
          s' = respond s t.engine e' (digestResponse (digestBytes d)))) := by
  obtain ⟨t, e, hp, hk⟩ := withTransaction_next h
  refine ⟨t, e, hp, ?_⟩
  by_cases hl : e.life = .active
  · simp only [hl, ne_eq, not_true_eq_false, if_false] at hk
    split at hk
    · rename_i e' d hf
      exact .inr ⟨hl, e', d, hf, by simpa using hk.symm⟩
    · cases hk
  · simp only [hl, ne_eq, not_false_eq_true, if_true, raise] at hk
    exact .inl ⟨hl, by simpa using hk.symm⟩

/-- A fault needs an ACTIVE engine: INIT never faults, and UPDATE and FINAL read nothing before their `life` check (R162). So
no instruction faults because an element has not been written since reset. -/
theorem exec_fault_active {i : Instr} {s : State} {f : Fault} (h : exec i s = .fault f) :
    ∃ t e, Presents s t e ∧ e.life = .active := by
  cases i <;> obtain ⟨t, e, hp, hk⟩ := withTransaction_fault h
  case init => cases hk
  all_goals
    refine ⟨t, e, hp, Classical.byContradiction fun hl => ?_⟩
    rw [if_pos hl] at hk
    cases hk

/-- No instruction faults on an engine as reset left it. -/
theorem exec_reset_no_fault {i : Instr} {s : State} {t : Transaction} (h : Presents s t Engine.reset) (f : Fault) :
    exec i s ≠ .fault f := fun hf => by
  obtain ⟨t', e, ⟨hi, he⟩, hl⟩ := exec_fault_active hf
  have ht := h.1.symm.trans hi
  simp only [Option.some.injEq, HostEvent.issue.injEq] at ht
  subst ht
  obtain rfl : Engine.reset = e := by simpa using h.2.symm.trans he
  cases hl

/-! ### A step -/

theorem resetEngine_next {s s' : State} {n : Nat} (h : resetEngine s n = .next s') :
    n < s.engines.length ∧
      s' = { s with engines := s.engines.set n Engine.reset, inputs := s.inputs.tail } := by
  unfold resetEngine at h
  split at h
  · rename_i e he
    exact ⟨(List.getElem?_eq_some_iff.mp he).1, by simpa using h.symm⟩
  · cases h

/-- Everything a step that goes on can be: idling, a reset, an ILLEGAL word answered, or an instruction executed. -/
theorem step_next {s s' : State} (h : step s = .next s') :
    (s.inputs = [] ∧ s' = s) ∨
    (∃ n, s.inputs.head? = some (.reset n) ∧ n < s.engines.length ∧
      s' = { s with engines := s.engines.set n Engine.reset, inputs := s.inputs.tail }) ∨
    (∃ t e, Presents s t e ∧ t.turn = .inTurn ∧ (∃ r, decode t.command.cmd = .error r) ∧
      s' = answer s t.engine (plainResponse .illegalCommand)) ∨
    (∃ t e i, Presents s t e ∧ t.turn = .inTurn ∧ decode t.command.cmd = .ok i ∧ exec i s = .next s') := by
  unfold step runEvent at h
  split at h
  · rename_i hin
    exact .inl ⟨hin, by simpa using h.symm⟩
  · rename_i n rest hin
    obtain ⟨hn, hs⟩ := resetEngine_next h
    exact .inr (.inl ⟨n, by simp [hin], hn, hs⟩)
  · rename_i t rest hin
    unfold runTransaction at h
    split at h
    · cases h
    · cases h
    · rename_i ht
      split at h
      · cases h
      · rename_i e he
        have hp : Presents s t e := ⟨by simp [hin], he⟩
        split at h
        · rename_i r hd
          exact .inr (.inr (.inl ⟨t, e, hp, ht, ⟨r, hd⟩, by simpa [raise] using h.symm⟩))
        · rename_i i hd
          exact .inr (.inr (.inr ⟨t, e, i, hp, ht, hd, h⟩))

end Sys2Proof.Machine
end

