-- ==== Sys2Proof/Laws/Engine.lean ====
section
/-! SUPPORT. What a step of a presented command is, and what ABSORB_BYTE, the absorption loop, the padding steps and FINAL's
operation can do, each said once; and the laws of `hashBlocks`. -/

namespace Sys2Proof.Machine

/-- Sequencing after a success. -/
theorem ok_bind {ε α β : Type} (a : α) (f : α → Except ε β) : ((Except.ok a : Except ε α) >>= f) = f a := rfl

/-- Sequencing after a fault. -/
theorem error_bind {ε α β : Type} (r : ε) (f : α → Except ε β) : ((Except.error r : Except ε α) >>= f) = .error r := rfl

/-! ### Presented commands -/

theorem inputs_of_presents {s : State} {t : Transaction} {e : Engine} (h : Presents s t e) :
    s.inputs = .issue t :: s.inputs.tail := by
  obtain ⟨h, _⟩ := h
  cases hs : s.inputs with
  | nil => simp [hs] at h
  | cons ev rest => simp [hs] at h; simp [h]

theorem presents_unique {s : State} {t t' : Transaction} {e e' : Engine} (h : Presents s t e) (h' : Presents s t' e') :
    t = t' ∧ e = e' := by
  have ht := h.1.symm.trans h'.1
  simp only [Option.some.injEq, HostEvent.issue.injEq] at ht
  subst ht
  have he := h.2.symm.trans h'.2
  exact ⟨rfl, by simpa using he⟩

/-- A step on a command issued in turn: decode it, then answer ILLEGAL_COMMAND or execute. -/
theorem step_of_presents {s : State} {t : Transaction} {e : Engine} (h : Presents s t e) (ht : t.turn = .inTurn) :
    step s = match decode t.command.cmd with
      | .error _ => raise s t.engine .illegalCommand
      | .ok i => exec i s := by
  unfold step runEvent
  rw [inputs_of_presents h]
  simp only [runTransaction, ht, h.2] <;> rfl

/-! ### Bytes and fills -/

theorem memWrite_byte (m : Memory) {a : Nat} (b : Byte) (h : a < 64) : memWrite m a 1 b = .ok (m.write a b) := by
  have hb : splitBE 1 (w := 8 * 1) b = [b] := by simp [splitBE]
  simp only [memWrite, hb]
  simp [writeBytes, writeByte, h, bind, Except.bind]

theorem memWrite_byte_ok {m m' : Memory} {a : Nat} {b : Byte} (h : memWrite m a 1 b = .ok m') :
    a < 64 ∧ m' = m.write a b := by
  by_cases ha : a < 64
  · rw [memWrite_byte m b ha] at h
    exact ⟨ha, by simpa using h.symm⟩
  · have hb : splitBE 1 (w := 8 * 1) b = [b] := by simp [splitBE]
    simp only [memWrite, hb, writeBytes, writeByte, if_neg ha, error_bind] at h
    cases h

/-- Everything a zero fill inside the buffer does. -/
theorem zeroFill_spec {m : Memory} {p q : Nat} (h : p ≤ q) (hq : q ≤ 64) :
    ∃ m', zeroFill m p q = .ok m' ∧ (∀ x, m'.read x = if p ≤ x ∧ x < q then some 0#8 else m.read x) ∧
      (m.wf = true → m'.wf = true) := by
  obtain ⟨m', h1, h2, h3⟩ := writeBytes_spec (List.replicate (q - p) 0#8) (m := m) (a := p) (by simp; omega)
  refine ⟨m', h1, fun x => ?_, h3⟩
  rw [h2 x, List.length_replicate, show p + (q - p) = q by omega]
  split
  · rw [List.getElem?_replicate, if_pos (by omega)]
  · rfl

theorem readElement_ok {α : Type} {el : Element} {o : Option α} {v : α} (h : readElement el o = .ok v) : o = some v := by
  cases o <;> simp_all [readElement]

theorem compressBuffer_of_reads {m : Memory} (h : Digest) (bs : List Byte) (hlen : bs.length = 64)
    (hr : ∀ i, i < 64 → m.read i = bs[i]?) : compressBuffer h m = .ok (compress h (beWords bs)) := by
  simp only [compressBuffer, blockWords_of_reads bs hlen hr, ok_bind]

/-! ### ABSORB_BYTE and the loop -/

/-- Everything an ABSORB_BYTE that succeeds does: one byte is written, at `used`; then either `used` goes up, or the full block
is compressed and counted. -/
theorem absorbByte_ok {e e' : Engine} {b : Byte} (h : absorbByte e b = .ok e') :
    ∃ u, e.used = some u ∧ u < 64 ∧ e'.life = e.life ∧ e'.buf = e.buf.write u b ∧
      ((u ≠ 63 ∧ e'.used = some (u + 1) ∧ e'.bitlen = e.bitlen ∧ e'.digest = e.digest) ∨
       (u = 63 ∧ e'.used = some 0 ∧ (∃ n, e.bitlen = some n ∧ e'.bitlen = some (n + 512#64)) ∧
          ∃ x y, e.digest = some x ∧ compressBuffer x e'.buf = .ok y ∧ e'.digest = some y)) := by
  simp only [absorbByte] at h
  cases hu : readElement Element.used e.used with
  | error f => rw [hu, error_bind] at h; cases h
  | ok u =>
    rw [hu, ok_bind] at h
    cases hw : memWrite e.buf u 1 b with
    | error f => rw [hw, error_bind] at h; cases h
    | ok m =>
      rw [hw, ok_bind] at h
      obtain ⟨hu64, rfl⟩ := memWrite_byte_ok hw
      refine ⟨u, readElement_ok hu, hu64, ?_⟩
      by_cases h63 : u + 1 = 64
      · rw [if_pos h63] at h
        cases hd : readElement Element.digest e.digest with
        | error f => rw [hd, error_bind] at h; cases h
        | ok x =>
          rw [hd, ok_bind] at h
          cases hc : compressBuffer x (e.buf.write u b) with
          | error f => rw [hc, error_bind] at h; cases h
          | ok y =>
            rw [hc, ok_bind] at h
            cases hn : readElement Element.bitlen e.bitlen with
            | error f => rw [hn, error_bind] at h; cases h
            | ok n =>
              rw [hn, ok_bind] at h
              cases h
              exact ⟨rfl, rfl, .inr ⟨by omega, rfl, ⟨n, readElement_ok hn, rfl⟩, x, y, readElement_ok hd, hc, rfl⟩⟩
      · rw [if_neg h63] at h
        cases h
        exact ⟨rfl, rfl, .inl ⟨by omega, rfl, rfl, rfl⟩⟩

/-- The loop over two pieces is the loop over the first and then over the second. -/
theorem absorb_append (d₁ d₂ : List Byte) (e : Engine) :
    absorb e (d₁ ++ d₂) = (absorb e d₁ >>= fun e' => absorb e' d₂) := by
  induction d₁ generalizing e with
  | nil => rfl
  | cons b d₁ ih =>
    simp only [List.cons_append, absorb]
    cases absorbByte e b with
    | error f => rfl
    | ok e' => simp only [ok_bind, ih]

/-- The loop never moves `life`. -/
theorem absorb_life {d : List Byte} {e e' : Engine} (h : absorb e d = .ok e') : e'.life = e.life := by
  induction d generalizing e with
  | nil => cases h; rfl
  | cons b d ih =>
    simp only [absorb] at h
    cases hb : absorbByte e b with
    | error f => rw [hb, error_bind] at h; cases h
    | ok e₁ =>
      rw [hb, ok_bind] at h
      obtain ⟨u, -, -, hl, -⟩ := absorbByte_ok hb
      rw [ih h, hl]

/-! ### FINAL's operation -/

/-- What the overflow step leaves: a write pointer of at most 56. -/
theorem padOverflow_pointer {m m' : Memory} {h h' : Digest} {p p' : Nat} (hp : padOverflow m h p = .ok (m', h', p')) :
    p' ≤ 56 := by
  unfold padOverflow at hp
  split at hp
  · cases hz : zeroFill m p 64 with
    | error f => rw [hz, error_bind] at hp; cases hp
    | ok m₁ =>
      rw [hz, ok_bind] at hp
      cases hc : compressBuffer h m₁ with
      | error f => rw [hc, error_bind] at hp; cases hp
      | ok h₁ => rw [hc, ok_bind] at hp; cases hp; omega
  · cases hp; omega

/-- Whatever FINAL pads, the engine after it is FINALIZED, `used` holds no value, and `H` is the digest answered. -/
theorem finalize_ok {e e' : Engine} {d : Digest} (h : finalize e = .ok (e', d)) :
    e'.life = .finalized ∧ e'.used = none ∧ e'.digest = some d ∧
      ∃ u n, e.used = some u ∧ e.bitlen = some n ∧ e'.bitlen = some (n + BitVec.ofNat 64 (8 * u)) := by
  simp only [finalize] at h
  cases hu : readElement Element.used e.used with
  | error f => rw [hu, error_bind] at h; cases h
  | ok u =>
    rw [hu, ok_bind] at h
    cases hn : readElement Element.bitlen e.bitlen with
    | error f => rw [hn, error_bind] at h; cases h
    | ok n =>
      rw [hn, ok_bind] at h
      have key : e'.life = .finalized ∧ e'.used = none ∧ e'.digest = some d ∧
          e'.bitlen = some (n + BitVec.ofNat 64 (8 * u)) := by
        simp only [bind, Except.bind] at h
        repeat' split at h
        all_goals first | (cases h; exact ⟨rfl, rfl, rfl, rfl⟩) | cases h
      exact ⟨key.1, key.2.1, key.2.2.1, u, n, readElement_ok hu, readElement_ok hn, key.2.2.2⟩

/-! ### Blocks in order -/

theorem hashBlocks_one {h : Digest} {blk : List Byte} (hb : blk.length = 64) :
    hashBlocks 1 h blk = compress h (beWords blk) := by
  simp [hashBlocks, ← hb]

/-- Whole blocks first, then the rest. -/
theorem hashBlocks_append (k : Nat) {j : Nat} {h : Digest} {a b : List Byte} (ha : a.length = 64 * k) :
    hashBlocks (k + j) h (a ++ b) = hashBlocks j (hashBlocks k h a) b := by
  induction k generalizing h a with
  | zero =>
    obtain rfl : a = [] := List.eq_nil_of_length_eq_zero (by omega)
    simp [hashBlocks]
  | succ k ih =>
    rw [show k + 1 + j = (k + j) + 1 by omega]
    simp only [hashBlocks]
    rw [List.take_append_of_le_length (by omega), List.drop_append_of_le_length (by omega), ih (by simp; omega)]

/-- Bytes after the blocks counted do not matter. -/
theorem hashBlocks_prefix (k : Nat) {h : Digest} {a b : List Byte} (ha : 64 * k ≤ a.length) :
    hashBlocks k h (a ++ b) = hashBlocks k h a := by
  induction k generalizing h a with
  | zero => rfl
  | succ k ih =>
    simp only [hashBlocks]
    rw [List.take_append_of_le_length (by omega), List.drop_append_of_le_length (by omega), ih (by simp; omega)]

end Sys2Proof.Machine
end

