-- ==== Sys2Proof/Laws/PerInstr.lean ====
section
/-! SUPPORT. The family made per instruction: an instruction's word agrees with its opcode-table row. -/

namespace Sys2Proof.Laws.InTable

/-- The row of spec/opcode_table.json: mask and match. -/
def row : Instr → Word × Word
  | .init => (0xFFFFFFFF#32, 0x10000000#32)
  | .update _ => (0xF7FFFFFF#32, 0x20000000#32)
  | .final => (0xFFFFFFFF#32, 0x30000000#32)

/-- The encoded word has the row's fixed bits, and its field P is the instruction's. -/
def Statement (i : Instr) : Prop :=
  encode i &&& (row i).1 = (row i).2 ∧ ∀ p, i = .update p → (encode i).getLsbD 27 = p

theorem init : Statement .init := ⟨by decide, by intro p h; cases h⟩

theorem update (p : Bool) : Statement (.update p) := ⟨by cases p <;> decide, by intro q h; cases h; cases p <;> decide⟩

theorem final : Statement .final := ⟨by decide, by intro p h; cases h⟩

end Sys2Proof.Laws.InTable
end

