-- ==== Sys2Proof/Tests/Slice0.lean ====
section
/-! SUPPORT. Tests on fixed values, each expected result taken from spec/95_test_vectors.md or from the rule named, and a witness for
the hypotheses of every statement that has any. -/

namespace Sys2Proof.Tests

open Sys2Proof Sys2Proof.Machine

/-! ### Small states -/

/-- A platform of one engine with these events to come. -/
def oneEngine (e : Engine) (evs : List HostEvent) : State := { engines := [e], inputs := evs, responses := [] }

/-- A command issued in turn to engine 0. -/
def toEngine0 (c : Command) : Transaction := { engine := 0, turn := .inTurn, command := c }

/-- A buffer whose first bytes are 0x61. -/
def fill (n : Nat) : Memory := (List.range n).map fun i => (i, 0x61#8)

/-- An ACTIVE engine with `used` bytes 0x61 buffered, and these counts. -/
def activeEngine (used : Nat) (bitlen : BitVec 64) (h : Digest) : Engine :=
  { life := .active, buf := fill used, used := some used, bitlen := some bitlen, digest := some h }

/-- A FINALIZED engine. -/
def finalizedEngine : Engine := { life := .finalized, buf := [], used := none, bitlen := some 0#64, digest := some hInit }

/-- The next state, if there is one. -/
def nextOf : Host.Outcome State Fault Refusal → Option State
  | .next s => some s
  | .fault _ => none
  | .refused _ => none

theorem next_of_nextOf {o : Host.Outcome State Fault Refusal} (h : (nextOf o).isSome = true) : ∃ s, o = .next s := by
  cases o with
  | next s => exact ⟨s, rfl⟩
  | fault f => simp [nextOf] at h
  | refused r => simp [nextOf] at h

/-- Engine 0 and the last response of a next state. -/
def view (o : Host.Outcome State Fault Refusal) : Option (Option Engine × Option Response) :=
  (nextOf o).map fun s => (s.engines[0]?, s.responses.getLast?.map (·.response))

/-! ### WellFormed refuses -/

theorem test_wf_refuses_reserved_bits : ({ op := 1#4, p := 0#1, rsv := 1#27 } : CmdFields).wf = false := by decide
theorem test_wf_refuses_reserved_op : ({ op := 4#4, p := 0#1, rsv := 0#27 } : CmdFields).wf = false := by decide
theorem test_wf_refuses_data_present_on_init : ({ op := 1#4, p := 1#1, rsv := 0#27 } : CmdFields).wf = false := by decide
theorem test_wf_accepts_update : ({ op := 2#4, p := 1#1, rsv := 0#27 } : CmdFields).wf = true := by decide
theorem test_dataExact_refuses_short_data :
    ({ cmd := 0x28000000#32, len := 4#64, data := [0x61, 0x62, 0x63] } : Command).dataExact (.update true) = false := by decide
theorem test_instr_wf : Instr.init.wf && (Instr.update true).wf && Instr.final.wf = true := by decide

/-! ### Decoding: the words of R70 bit by bit, and the table's numbering -/

theorem test_decode_init : decode 0b00010000000000000000000000000000#32 = .ok .init := by decide
theorem test_decode_update_absent : decode 0b00100000000000000000000000000000#32 = .ok (.update false) := by decide
theorem test_decode_update_present : decode 0b00101000000000000000000000000000#32 = .ok (.update true) := by decide
theorem test_decode_final : decode 0b00110000000000000000000000000000#32 = .ok .final := by decide
theorem test_decode_all_rsv : decode 0x2FFFFFFF#32 = .error .reservedBits := by decide
theorem test_encode_update : encode (.update true) = 0x28000000#32 := by decide
theorem test_table_word : decodeTableWord 32 0x28000000 = some (.update true) ∧ decodeTableWord 32 0x38000000 = none := by decide
theorem test_life_codes : Life.uninit.code = 0#2 ∧ Life.active.code = 1#2 ∧ Life.finalized.code = 2#2 := by decide
theorem test_status_codes :
    Status.ok.code = 0#2 ∧ Status.invalidArgument.code = 1#2 ∧ Status.invalidState.code = 2#2 ∧ Status.illegalCommand.code = 3#2 := by
  decide

/-! ### The first instruction after reset -/

/-- V-A1: INIT from reset. -/
theorem test_first_init : view (step (State.reset.withFetchWord 32 0x10000000)) =
    some (some { life := .active, buf := [], used := some 0, bitlen := some 0#64, digest := some hInit },
      some { resp := 0#32, digestOut := none }) := by decide
/-- V-A9, P3 row 1: UPDATE from reset. -/
theorem test_first_update : view (step (State.reset.withFetchWord 32 0x28000000)) =
    some (some Engine.reset, some { resp := 2#32, digestOut := none }) := by decide
/-- P3 row 2: FINAL from reset. -/
theorem test_first_final : view (step (State.reset.withFetchWord 32 0x30000000)) =
    some (some Engine.reset, some { resp := 2#32, digestOut := none }) := by decide
/-- P3 row 7: FINAL's word with P = 1. -/
theorem test_illegal_word : view (step (State.reset.withFetchWord 32 0x38000000)) =
    some (some Engine.reset, some { resp := 3#32, digestOut := none }) := by decide

/-! ### Compression vectors -/

/-- V-C0, the row of 12345678. -/
theorem test_bit_functions :
    rotr 0x12345678#32 1 = 0x091a2b3c#32 ∧ rotr 0x12345678#32 31 = 0x2468acf0#32 ∧
    sigma0 0x12345678#32 = 0xe7fce6ee#32 ∧ sigma1 0x12345678#32 = 0xa1f78649#32 ∧
    bigSigma0 0x12345678#32 = 0x66146474#32 ∧ bigSigma1 0x12345678#32 = 0x3561abda#32 := by decide
/-- V-C0, the row of ff00ff00. -/
theorem test_ch_maj : ch 0xff00ff00#32 0xf0f0f0f0#32 0xcccccccc#32 = 0xf0ccf0cc#32 ∧
    maj 0xff00ff00#32 0xf0f0f0f0#32 0xcccccccc#32 = 0xfcc0fcc0#32 := by decide
/-- V-C2: the last words of the schedule of "abc", in both storages. -/
theorem test_schedule_abc : ∀ ss : ScheduleStrategy,
    (schedule ss (0x61626380#32 :: List.replicate 14 0#32 ++ [0x18#32])).drop 60 =
      [0xa43fcf15, 0x668b2ff8, 0xeeaba2cc, 0x12b1edeb] := by
  intro ss; cases ss <;> decide +kernel
/-- V-C5: H_INIT and a block of zeros, with the rolling schedule and the circular rounds. -/
theorem test_compress_zero_block : compressBy .rolling16 .circular hInit (List.replicate 16 0#32) =
    { h0 := 0xda5698be, h1 := 0x17b9b469, h2 := 0x62335799, h3 := 0x779fbeca
      h4 := 0x8ce5d491, h5 := 0xc0d26243, h6 := 0xbafef9ea, h7 := 0x1837a9d8 } := by decide +kernel

/-! ### One command each -/

/-- V-A12's shape: INIT abandons a message in progress, and writes no byte of `buf`. -/
theorem test_init_restarts :
    view (step (oneEngine (activeEngine 1 0x200#64 { hInit with h0 := 0 }) [.issue (toEngine0 AsmLine.init.command)])) =
      some (some (activeEngine 0 0#64 hInit |> fun e => { e with buf := [(0, 0x61#8)] }), some { resp := 0#32, digestOut := none }) := by
  decide
/-- V-A3: the 64th byte is compressed inside the UPDATE. -/
theorem test_update_full_block :
    (view (step (oneEngine (activeEngine 0 0#64 hInit) (issueLines 0 [.updateRepeat 64 'a'])))).map
        (fun v => v.1.map fun e => (e.used, e.bitlen, e.digest)) =
      some (some (some 0, some 0x200#64,
        some { h0 := 0xdf5bb81c, h1 := 0xe81e0626, h2 := 0xfb45a894, h3 := 0x4fd40f31
               h4 := 0xb25e6816, h5 := 0xd6d499c1, h6 := 0xab904929, h7 := 0x00635e66 })) := by decide +kernel
/-- V-A6: `bitlen` wraps. -/
theorem test_update_bitlen_wraps :
    (view (step (oneEngine (activeEngine 63 0xFFFFFFFFFFFFFE00#64 hInit) (issueLines 0 [.updateBytes [0]])))).map
        (fun v => v.1.map fun e => (e.used, e.bitlen)) = some (some (some 0, some 0#64)) := by decide +kernel
/-- V-S5, V-F3: 56 bytes buffered, two compressions. -/
theorem test_final_overflow :
    (view (step (oneEngine (activeEngine 56 0#64 hInit) (issueLines 0 [.final])))).map (fun v => v.2.map (·.digestOut)) =
      some (some (some
        [0xb3, 0x54, 0x39, 0xa4, 0xac, 0x6f, 0x09, 0x48, 0xb6, 0xd6, 0xf9, 0xe3, 0xc6, 0xaf, 0x0f, 0x5f,
         0x59, 0x0c, 0xe2, 0x0f, 0x1b, 0xde, 0x70, 0x90, 0xef, 0x79, 0x70, 0x68, 0x6e, 0xc6, 0x73, 0x8a])) := by decide +kernel
/-- V-F6: one byte after `bitlen` = 2^64 - 8, so the length field is 0. -/
theorem test_final_length_wraps :
    (view (step (oneEngine (activeEngine 1 0xFFFFFFFFFFFFFFF8#64 hInit) (issueLines 0 [.final])))).map
        (fun v => v.2.map (·.digestOut)) =
      some (some (some
        [0x76, 0x7d, 0xd5, 0x0d, 0xa1, 0xb5, 0xb8, 0x86, 0x51, 0xe2, 0x38, 0xaa, 0x23, 0x9f, 0x5f, 0xe9,
         0xf9, 0x34, 0xbe, 0xa6, 0x1f, 0x90, 0x9e, 0x70, 0x78, 0x5e, 0xed, 0x84, 0xfd, 0x23, 0x31, 0xfc])) := by decide +kernel
/-- V-S1 and V-S11 by `engineFn`, the padding of the whole message (R132). -/
theorem test_engineFn_abc : (engineFn [0x61, 0x62, 0x63]).take 8 = [0xba, 0x78, 0x16, 0xbf, 0x8f, 0x01, 0xcf, 0xea] := by
  decide +kernel
theorem test_engineFn_a120 : (engineFn (List.replicate 120 0x61)).take 8 = [0x2f, 0x3d, 0x33, 0x54, 0x32, 0xc7, 0x0b, 0x58] := by
  decide +kernel
/-- R74: chunks of at most 2. -/
theorem test_chunks : pseudoUpdateChunks 2 [1, 2, 3] = [.updateBytes [1, 2], .updateBytes [3]] := by decide
/-- R73: `UPDATE.LEN -1` and `UPDATE "abc"`. -/
theorem test_lines : (AsmLine.updateLen (-1) []).command.len = 0xFFFFFFFFFFFFFFFF#64 ∧
    (AsmLine.updateText ['a', 'b', 'c']).command = { cmd := 0x28000000#32, len := 3#64, data := [0x61, 0x62, 0x63] } := by decide

/-! ### Witnesses: the hypotheses of each statement can be met -/

/-- `n` bytes 0x61 buffered make a ready engine, for the values of `n` where the rules change. -/
theorem ready_of_bytes (n : Nat) (h : n = 0 ∨ n = 3 ∨ n = 55 ∨ n = 56 ∨ n = 62 ∨ n = 63) (b : BitVec 64) (d : Digest) :
    (activeEngine n b d).Ready (List.replicate n 0x61#8) b d := by
  refine ⟨rfl, by simp [activeEngine], by simp; omega, rfl, rfl, ?_⟩
  have hb : ∀ i, i < n → (fill n).read i = (List.replicate n 0x61#8)[i]? := by
    rcases h with rfl | rfl | rfl | rfl | rfl | rfl <;> decide +kernel
  simpa [activeEngine] using hb

theorem holds_three : (activeEngine 3 0#64 hInit).Holds (List.replicate 3 0x61#8) := by
  refine ⟨rfl, rfl, rfl, rfl, ?_⟩
  decide

theorem witness_reset_event : ∃ s : State, ∃ n e rest, s.inputs = HostEvent.reset n :: rest ∧ s.engines[n]? = some e :=
  ⟨oneEngine finalizedEngine [.reset 0], 0, finalizedEngine, [], rfl, rfl⟩
theorem witness_idle : ∃ s : State, s.inputs = [] := ⟨State.reset, rfl⟩
theorem witness_decoded : ∃ s t e i, Presents s t e ∧ t.turn = .inTurn ∧ decode t.command.cmd = .ok i :=
  ⟨oneEngine Engine.reset [.issue (toEngine0 AsmLine.final.command)], toEngine0 AsmLine.final.command, Engine.reset, .final,
    ⟨rfl, rfl⟩, rfl, by decide⟩
theorem witness_illegal : ∃ s t e, Presents s t e ∧ t.turn = .inTurn ∧
    t.command.cmd ∉ [0x10000000#32, 0x20000000#32, 0x28000000#32, 0x30000000#32] :=
  ⟨oneEngine finalizedEngine [.issue (toEngine0 (AsmLine.word 0x38000000).command)], toEngine0 (AsmLine.word 0x38000000).command,
    finalizedEngine, ⟨rfl, rfl⟩, rfl, by decide⟩
theorem witness_duty_breach : ∃ s₁ s₂ : State, ∃ t₁ t₂ rest, s₁.inputs = .issue t₁ :: rest ∧ t₁.turn = .beforeResponse ∧
    s₂.inputs = .issue t₂ :: rest ∧ t₂.turn = .secondHost :=
  ⟨oneEngine Engine.reset [.issue ⟨0, .beforeResponse, AsmLine.init.command⟩],
    oneEngine Engine.reset [.issue ⟨0, .secondHost, AsmLine.init.command⟩], _, _, [], rfl, rfl, rfl, rfl⟩
theorem witness_absent_target : ∃ s₁ s₂ s₃ : State, ∃ t rest n,
    (s₁.inputs = .issue t :: rest ∧ t.turn = .inTurn ∧ s₁.engines[t.engine]? = none) ∧
    (s₂.inputs = .reset n :: rest ∧ s₂.engines[n]? = none) ∧ ∀ t, s₃.inputs.head? ≠ some (.issue t) :=
  ⟨oneEngine Engine.reset [.issue ⟨1, .inTurn, AsmLine.init.command⟩], oneEngine Engine.reset [.reset 1], State.reset, _, [], 1,
    ⟨rfl, rfl, rfl⟩, ⟨rfl, rfl⟩, fun t h => by cases h⟩
theorem witness_presents : ∃ s t e, Presents s t e :=
  ⟨oneEngine Engine.reset [.issue (toEngine0 AsmLine.init.command)], _, _, rfl, rfl⟩
theorem witness_init_twice : ∃ s : State, ∃ t t' e rest, s.inputs = .issue t :: .issue t' :: rest ∧ s.engines[t.engine]? = some e ∧
    t'.engine = t.engine :=
  ⟨oneEngine finalizedEngine (issueLines 0 [.init, .init]), _, _, finalizedEngine, [], rfl, rfl, rfl⟩
/-- Below a full block, at its end, and with `bitlen` about to wrap. -/
theorem witness_absorb_byte : ∃ e₁ e₂ : Engine, ∃ t₁ t₂ n h, e₁.Ready t₁ n h ∧ t₁.length = 62 ∧ e₂.Ready t₂ n h ∧ t₂.length = 63 ∧
    n = BitVec.ofNat 64 (2 ^ 64 - 512) :=
  ⟨_, _, _, _, _, hInit, ready_of_bytes 62 (by simp) (BitVec.ofNat 64 (2 ^ 64 - 512)) hInit, by simp,
    ready_of_bytes 63 (by simp) _ hInit, by simp, rfl⟩
/-- The clauses of the order of checks, each at a boundary value of LEN. -/
theorem witness_update_not_active : ∃ s t e, Presents s t e ∧ e.life ≠ .active :=
  ⟨oneEngine Engine.reset (issueLines 0 [.updateBytes [0x61]]), _, _, ⟨rfl, rfl⟩, by decide⟩
theorem witness_update_negative : ∃ s t e, Presents s t e ∧ e.life = .active ∧ t.command.len.toInt < 0 :=
  ⟨oneEngine (activeEngine 0 0#64 hInit) (issueLines 0 [.updateLen (-1) []]), _, _, ⟨rfl, rfl⟩, rfl, by decide⟩
theorem witness_update_null : ∃ s t e, Presents s t e ∧ e.life = .active ∧ 0 < t.command.len.toInt ∧ t.command.len.toInt = 1 :=
  ⟨oneEngine (activeEngine 0 0#64 hInit) (issueLines 0 [.updateNull 1]), _, _, ⟨rfl, rfl⟩, rfl, by decide, by decide⟩
theorem witness_update_mismatch : ∃ s t e, Presents s t e ∧ e.life = .active ∧ 0 ≤ t.command.len.toInt ∧
    (t.command.data.length : Int) ≠ t.command.len.toInt ∧ t.command.len.toInt = 0 :=
  ⟨oneEngine (activeEngine 0 0#64 hInit) (issueLines 0 [.updateLen 0 [0x61]]), _, _, ⟨rfl, rfl⟩, rfl, by decide, by decide, by decide⟩
theorem witness_empty_update : ∃ s t e, Presents s t e ∧ e.life = .active ∧ t.command.len = 0#64 ∧ t.command.data = [] :=
  ⟨oneEngine (activeEngine 3 0#64 hInit) (issueLines 0 [.updateBytes []]), _, _, ⟨rfl, rfl⟩, rfl, rfl, rfl⟩
/-- UPDATE of one byte that fills a block (`used` + len = 64). -/
theorem witness_update_data : ∃ s t e tail n h, Presents s t e ∧ e.Ready tail n h ∧
    (t.command.data.length : Int) = t.command.len.toInt ∧ tail.length + t.command.data.length = 64 :=
  ⟨oneEngine (activeEngine 63 0#64 hInit) (issueLines 0 [.updateBytes [0x61]]), _, _, _, _, _, ⟨rfl, rfl⟩,
    ready_of_bytes 63 (by simp) 0#64 hInit, by decide, by decide⟩
theorem witness_updates_join : ∃ s j : State, ∃ k e tail n h d₁ d₂ rest rest', s.engines[k]? = some e ∧ e.Ready tail n h ∧
    j.engines = s.engines ∧ (d₁ ++ d₂).length < 2 ^ 63 ∧ s.inputs = issueLines k [.updateBytes d₁, .updateBytes d₂] ++ rest ∧
    j.inputs = issueLines k [.updateBytes (d₁ ++ d₂)] ++ rest' :=
  ⟨oneEngine (activeEngine 3 0#64 hInit) (issueLines 0 [.updateBytes [1], .updateBytes [2]]),
    oneEngine (activeEngine 3 0#64 hInit) (issueLines 0 [.updateBytes [1, 2]]), 0, _, _, _, _, [1], [2], [], [], rfl,
    ready_of_bytes 3 (by simp) 0#64 hInit, rfl, by decide, rfl, rfl⟩
theorem witness_final_outside : ∃ s t e, Presents s t e ∧ e.life ≠ .active :=
  ⟨oneEngine finalizedEngine (issueLines 0 [.final]), _, _, ⟨rfl, rfl⟩, by decide⟩
/-- FINAL at the two sides of the padding boundary, and on an empty and a full tail. -/
theorem witness_final : ∀ n, n = 0 ∨ n = 55 ∨ n = 56 ∨ n = 63 →
    ∃ s t e tail b h, Presents s t e ∧ e.Ready tail b h ∧ tail.length = n :=
  fun n hn => ⟨oneEngine (activeEngine n 0#64 hInit) (issueLines 0 [.final]), _, _, _, _, _, ⟨rfl, rfl⟩,
    ready_of_bytes n (by omega) 0#64 hInit, by simp⟩

/-- A failing command, and what the statements about its step need. -/
theorem witness_failure : ∃ s s' n r, step s = .next s' ∧ s'.responses = s.responses ++ [{ engine := n, response := r }] ∧
    r.resp ≠ 0#32 := by
  obtain ⟨s', h⟩ := next_of_nextOf (o := step (oneEngine finalizedEngine (issueLines 0 [.final]))) (by decide)
  refine ⟨_, s', 0, { resp := 2#32, digestOut := none }, h, ?_, by decide⟩
  have hr : (nextOf (step (oneEngine finalizedEngine (issueLines 0 [.final])))).map (·.responses) =
    some [{ engine := 0, response := { resp := 2#32, digestOut := none } }] := by decide
  rw [h] at hr
  simpa [nextOf, oneEngine] using hr
/-- A command executed by one engine of two. -/
theorem witness_step : ∃ s s' : State, ∃ t rest n e, s.inputs = .issue t :: rest ∧ step s = .next s' ∧ s.engines[n]? = some e ∧
    n ≠ t.engine ∧ ∃ s₂ : State, s₂.inputs = s.inputs ∧ s₂.responses = s.responses ∧
      s₂.engines[t.engine]? = s.engines[t.engine]? ∧ s₂ ≠ s := by
  let s : State := { oneEngine Engine.reset (issueLines 0 [.init]) with engines := [Engine.reset, finalizedEngine] }
  obtain ⟨s', h⟩ := next_of_nextOf (o := step s) (by decide)
  exact ⟨s, s', _, [], 1, finalizedEngine, rfl, h, rfl, by decide, oneEngine Engine.reset (issueLines 0 [.init]), rfl, rfl, rfl, by decide⟩
theorem witness_finalized : ∃ s s' : State, ∃ n e, s.engines[n]? = some e ∧ e.life = .finalized ∧ step s = .next s' ∧
    s.inputs.head? ≠ some (.reset n) ∧
    ∀ t, s.inputs.head? = some (.issue t) → t.engine = n → decode t.command.cmd ≠ .ok .init := by
  obtain ⟨s', h⟩ := next_of_nextOf (o := step (oneEngine finalizedEngine (issueLines 0 [.final]))) (by decide)
  refine ⟨_, s', 0, finalizedEngine, rfl, rfl, h, by decide, fun t ht _ => ?_⟩
  have : t = toEngine0 AsmLine.final.command := by simpa [oneEngine, issueLines, toEngine0, eq_comm] using ht
  subst this
  decide
theorem witness_shaped : ∃ s s' : State, s.responses ≠ [] ∧ (∀ a ∈ s.responses, a.response.shaped) ∧ step s = .next s' := by
  let s : State := { oneEngine finalizedEngine (issueLines 0 [.final]) with responses := [⟨0, plainResponse .ok⟩] }
  obtain ⟨s', h⟩ := next_of_nextOf (o := step s) (by decide)
  refine ⟨s, s', by simp [s], fun a ha => ?_, h⟩
  obtain rfl : a = ⟨0, plainResponse .ok⟩ := by simpa [s] using ha
  exact ⟨by decide, fun d hd => by cases hd⟩
/-- A platform of two engines, NUM_ENGINES = 2. -/
theorem witness_num_engines : 1 ≤ 2 ∧ (State.resetWith 2).engines = [Engine.reset, Engine.reset] := by decide
/-- The invariant beyond reset: an ACTIVE engine that holds a message, about to answer FINAL. -/
theorem witness_invariant : ∃ s s' : State, s.Inv ∧ step s = .next s' ∧ ∃ e ∈ s.engines, e.life = .active := by
  obtain ⟨s', h⟩ := next_of_nextOf (o := step (oneEngine (activeEngine 3 0#64 hInit) (issueLines 0 [.final]))) (by decide +kernel)
  refine ⟨_, s', ⟨fun e he => ?_, by decide⟩, h, _, List.mem_singleton_self _, rfl⟩
  obtain rfl : e = activeEngine 3 0#64 hInit := by simpa [oneEngine] using he
  exact ⟨by decide, fun h => (by cases h), fun _ => ⟨_, holds_three⟩, fun h => (by cases h)⟩
/-- Two engines that differ in a dead byte. -/
theorem witness_same_live : ∃ s s' : State, s.SameLive s' ∧ s ≠ s' := by
  refine ⟨oneEngine (activeEngine 0 0#64 hInit) (issueLines 0 [.final]),
    oneEngine { activeEngine 0 0#64 hInit with buf := [(9, 0xff#8)] } (issueLines 0 [.final]), ⟨rfl, rfl, ?_⟩, by decide⟩
  refine .cons ⟨rfl, fun _ => rfl, fun _ => rfl, fun _ => rfl, fun _ u hu i hi => ?_⟩ .nil
  simp [activeEngine] at hu
  omega
theorem witness_rotr : (1 ≤ 1 ∧ 1 ≤ 31) ∧ (1 ≤ 31 ∧ 31 ≤ 31) := by decide
theorem witness_block : ∃ m : List Word, m.length = 16 := ⟨List.replicate 16 1#32, rfl⟩
theorem witness_buffer_word : ∃ m : Memory, ∃ b₀ b₁ b₂ b₃, m.read (4 * 15) = some b₀ ∧ m.read (4 * 15 + 1) = some b₁ ∧
    m.read (4 * 15 + 2) = some b₂ ∧ m.read (4 * 15 + 3) = some b₃ :=
  ⟨[(60, 1), (61, 2), (62, 3), (63, 4)], 1, 2, 3, 4, by decide, by decide, by decide, by decide⟩
theorem witness_mem_write : 56 + 8 ≤ 64 ∧ 63 + 1 ≤ 64 := by decide
theorem witness_missing_byte : ∃ m : Memory, m.read 63 = none ∧ m.read 0 ≠ none := ⟨[(0, 1)], by decide, by decide⟩
theorem witness_digest_word : ∃ w, hInit.words[7]? = some w := ⟨_, rfl⟩
theorem witness_canonical : ∃ m m' : Memory, m.wf = true ∧ m'.wf = true ∧ m ≠ [] ∧ ∀ a, m.read a = m'.read a :=
  ⟨[(0, 1), (63, 2)], [(0, 1), (63, 2)], by decide, by decide, by decide, fun _ => rfl⟩
theorem witness_holds_update : ∃ s t e msg, Presents s t e ∧ e.Holds msg ∧ (t.command.data.length : Int) = t.command.len.toInt :=
  ⟨oneEngine (activeEngine 3 0#64 hInit) (issueLines 0 [.updateBytes [0x62]]), _, _, _, ⟨rfl, rfl⟩, holds_three, by decide⟩
theorem witness_hash : ∃ s : State, ∃ n e d rest, s.engines[n]? = some e ∧ d.length < 2 ^ 63 ∧
    s.inputs = issueLines n (pseudoHash d) ++ rest ∧ d ≠ [] :=
  ⟨oneEngine finalizedEngine (issueLines 0 (pseudoHash [1, 2])), 0, finalizedEngine, [1, 2], [], rfl, by decide, rfl, by decide⟩
theorem witness_stream : ∃ s : State, ∃ n e rest, ∃ ds : List (List Byte), s.engines[n]? = some e ∧ (∀ d ∈ ds, d.length < 2 ^ 63) ∧
    s.inputs = issueLines n (.init :: ds.map .updateBytes ++ [.final]) ++ rest ∧ ds = [[1], [], [2, 3]] :=
  ⟨oneEngine Engine.reset (issueLines 0 [.init, .updateBytes [1], .updateBytes [], .updateBytes [2, 3], .final]), 0, Engine.reset, [],
    [[1], [], [2, 3]], rfl, by decide, rfl, rfl⟩
theorem witness_chunks : ∃ s : State, ∃ n e rest, s.engines[n]? = some e ∧
    s.inputs = issueLines n (.init :: pseudoUpdateChunks 1 [1, 2, 3] ++ [.final]) ++ rest :=
  ⟨oneEngine Engine.reset (issueLines 0 (.init :: pseudoUpdateChunks 1 [1, 2, 3] ++ [.final])), 0, Engine.reset, [], rfl, by simp [oneEngine]⟩
theorem witness_empty_hash : ∃ s : State, ∃ n e, s.engines[n]? = some e ∧ s.inputs = issueLines n (pseudoHash []) :=
  ⟨oneEngine finalizedEngine (issueLines 0 (pseudoHash [])), 0, finalizedEngine, rfl, rfl⟩

end Sys2Proof.Tests
end

section
/-! PROOFS. What holds right after reset (R33, R180), for every number of engines: the reset values and the invariant. -/

namespace Sys2Proof.Proofs.Scope

open Sys2Proof Sys2Proof.Machine

/-- Every engine of a platform right after reset is as the reset input leaves an engine. -/
theorem eq_reset_of_mem_resetWith {numEngines : Nat} {e : Engine} (h : e ∈ (State.resetWith numEngines).engines) :
    e = Engine.reset := by
  rw [resetWith_engines] at h
  exact List.eq_of_mem_replicate h

/-- R33: no byte of the buffer holds a value after reset. -/
@[simp] theorem engineReset_read (a : Nat) : Engine.reset.buf.read a = none := rfl

/-- An engine as reset left it meets the invariant: its buffer lists nothing, and it is neither ACTIVE nor FINALIZED. -/
theorem engineReset_inv : Engine.reset.Inv where
  wf := rfl
  uninit _ := rfl
  active h := by simp at h
  finalized h := by simp at h

/-- A platform right after reset meets the invariant as soon as it has an engine. -/
theorem resetWith_inv {numEngines : Nat} (h : 1 ≤ numEngines) : (State.resetWith numEngines).Inv where
  engines _ he := eq_reset_of_mem_resetWith he ▸ engineReset_inv
  count := by simpa using h

/-- Settles O4: every engine after reset is `Engine.reset`, whose buffer lists no byte; the other values are the definition's. -/
theorem resetValues : Obligations.ResetValues := by
  unfold Obligations.ResetValues
  refine ⟨fun numEngines => ⟨resetWith_engines numEngines, fun e he a => ?_, resetWith_inputs numEngines,
    resetWith_responses numEngines⟩, rfl⟩
  rw [eq_reset_of_mem_resetWith he]
  exact engineReset_read a

/-- Settles O30: the platform with any number of engines from 1 up meets the invariant, and the fixed machine is the one
with the default number. -/
theorem resetMeetsInvariant : Obligations.ResetMeetsInvariant := by
  unfold Obligations.ResetMeetsInvariant
  have default_pos : 1 ≤ Config.numEngines := le_rfl
  exact ⟨resetWith_inv default_pos, fun _ h => resetWith_inv h⟩

end Sys2Proof.Proofs.Scope
end

section
/-! PROOFS. The engine's state between commands (10_state.md): what every step keeps, that no step faults, that dead state and
earlier responses are never observed, and how `life` moves. -/

namespace Sys2Proof.Proofs.EngineState

open Sys2Proof Sys2Proof.Machine

/-! ### The bytes at the beginning of the buffer

Every write of UPDATE and of FINAL goes to the first offset after the bytes already written for the block in progress. So what
matters of a buffer is the bytes it begins with. -/

/-- The buffer holds these bytes from offset 0 on. `Engine.Ready` says it of the buffered tail. -/
def BeginsWith (m : Memory) (bs : List Byte) : Prop := ∀ i, i < bs.length → m.read i = bs[i]?

theorem beginsWith_nil (m : Memory) : BeginsWith m [] := fun _ h => absurd h (Nat.not_lt_zero _)

/-- Bytes written right after those the buffer begins with are joined to them. -/
theorem writeBytes_beginsWith {m : Memory} {bs : List Byte} (cs : List Byte) (h : BeginsWith m bs)
    (hlen : bs.length + cs.length ≤ 64) :
    ∃ m', writeBytes m bs.length cs = .ok m' ∧ BeginsWith m' (bs ++ cs) ∧ (m.wf = true → m'.wf = true) := by
  obtain ⟨m', hw, hr, hwf⟩ := writeBytes_spec cs (m := m) hlen
  refine ⟨m', hw, fun i hi => ?_, hwf⟩
  rw [List.length_append] at hi
  rw [hr i]
  by_cases hb : i < bs.length
  · rw [if_neg (by omega), h i hb, List.getElem?_append_left hb]
  · rw [if_pos (by omega), List.getElem?_append_right (by omega)]

theorem memWrite_beginsWith {m : Memory} {bs : List Byte} {n : Nat} (v : BitVec (8 * n)) (h : BeginsWith m bs)
    (hlen : bs.length + n ≤ 64) :
    ∃ m', memWrite m bs.length n v = .ok m' ∧ BeginsWith m' (bs ++ splitBE n v) ∧ (m.wf = true → m'.wf = true) :=
  writeBytes_beginsWith (splitBE n v) h (by simpa using hlen)

theorem zeroFill_beginsWith {m : Memory} {bs : List Byte} {q : Nat} (h : BeginsWith m bs) (hbs : bs.length ≤ q) (hq : q ≤ 64) :
    ∃ m', zeroFill m bs.length q = .ok m' ∧ BeginsWith m' (bs ++ List.replicate (q - bs.length) 0#8) ∧
      (m.wf = true → m'.wf = true) :=
  writeBytes_beginsWith _ h (by simp; omega)

theorem compressBuffer_beginsWith {m : Memory} {bs : List Byte} (x : Digest) (h : BeginsWith m bs) (hlen : bs.length = 64) :
    compressBuffer x m = .ok (compress x (beWords bs)) :=
  compressBuffer_of_reads x bs hlen fun i hi => h i (by omega)

/-- A buffer that begins with a whole block holds a value in every byte. -/
theorem isSome_read_of_beginsWith {m : Memory} {bs : List Byte} (h : BeginsWith m bs) (hlen : bs.length = 64) {a : Nat}
    (ha : a < 64) : (m.read a).isSome = true := by
  simp [h a (by omega), hlen, ha]

/-! ### ABSORB_BYTE on a ready engine (R80) -/

theorem absorbByte_wf {e e' : Engine} {b : Byte} (h : absorbByte e b = .ok e') (hwf : e.buf.wf = true) : e'.buf.wf = true := by
  obtain ⟨u, -, hu, -, hbuf, -⟩ := absorbByte_ok h
  exact hbuf ▸ Memory.wf_write b hwf hu

/-- Below 63 buffered bytes the byte joins the buffered tail. -/
theorem absorbByte_of_partial {e : Engine} {tail : List Byte} {n : BitVec 64} {h : Digest} (b : Byte) (hr : e.Ready tail n h)
    (hlt : tail.length < 63) : ∃ e', absorbByte e b = .ok e' ∧ e'.Ready (tail ++ [b]) n h := by
  obtain ⟨hlife, hused, -, hn, hh, hbytes⟩ := hr
  obtain ⟨m, hm, hbegin, -⟩ := memWrite_beginsWith (n := 1) b hbytes (by omega)
  refine ⟨{ e with buf := m, used := some (tail.length + 1) }, ?_, hlife, by simp, by simp; omega, hn, hh, ?_⟩
  · have hnot : tail.length + 1 ≠ 64 := by omega
    simp only [absorbByte, hused, readElement, ok_bind, hm, if_neg hnot]
  · simpa [splitBE, BeginsWith] using hbegin

/-- With 63 the block is full: it is compressed and counted, and no byte is buffered. -/
theorem absorbByte_of_full {e : Engine} {tail : List Byte} {n : BitVec 64} {h : Digest} (b : Byte) (hr : e.Ready tail n h)
    (h63 : tail.length = 63) :
    ∃ e', absorbByte e b = .ok e' ∧ e'.Ready [] (n + 512#64) (compress h (beWords (tail ++ [b]))) := by
  obtain ⟨hlife, hused, -, hn, hh, hbytes⟩ := hr
  obtain ⟨m, hm, hbegin, -⟩ := memWrite_beginsWith (n := 1) b hbytes (by omega)
  have hblock : BeginsWith m (tail ++ [b]) := by simpa [splitBE] using hbegin
  rw [h63] at hm hused
  refine ⟨{ e with buf := m, used := some 0, bitlen := some (n + 512#64), digest := _ }, ?_, hlife, rfl, by simp, rfl, rfl,
    beginsWith_nil m⟩
  simp only [absorbByte, hused, hn, hh, readElement, ok_bind, hm, Nat.reduceAdd, if_pos,
    compressBuffer_beginsWith h hblock (by simp [h63])]

/-! ### The message an engine holds (R36) -/

/-- The bytes of a message after its whole blocks. -/
def openTail (msg : List Byte) : List Byte := msg.drop (64 * (msg.length / 64))

@[simp] theorem openTail_length (msg : List Byte) : (openTail msg).length = msg.length % 64 := by
  simp only [openTail, List.length_drop]
  omega

/-- An engine holds a message just when it is ready with the message's open tail, its whole blocks compressed and counted. -/
theorem holds_iff_ready {e : Engine} {msg : List Byte} :
    e.Holds msg ↔ e.Ready (openTail msg) (BitVec.ofNat 64 (512 * (msg.length / 64))) (hashBlocks (msg.length / 64) hInit msg) := by
  constructor
  · rintro ⟨hlife, hused, hn, hh, hbytes⟩
    exact ⟨hlife, by simpa using hused, by simp; omega, hn, hh, fun i hi => by
      simpa [openTail] using hbytes i (by simpa using hi)⟩
  · rintro ⟨hlife, hused, -, hn, hh, hbytes⟩
    exact ⟨hlife, by simpa using hused, hn, hh, fun i hi => by simpa [openTail] using hbytes i (by simpa using hi)⟩

/-- The blocks of a message whose last block a byte completes. -/
theorem hashBlocks_of_completed (h : Digest) {msg : List Byte} (b : Byte) (hfull : msg.length % 64 = 63) :
    hashBlocks (msg.length / 64 + 1) h (msg ++ [b]) =
      compress (hashBlocks (msg.length / 64) h msg) (beWords (openTail msg ++ [b])) := by
  obtain ⟨whole, hwhole⟩ : ∃ whole, whole = msg.take (64 * (msg.length / 64)) := ⟨_, rfl⟩
  have hlen : whole.length = 64 * (msg.length / 64) := by simp [hwhole]; omega
  have hmsg : msg = whole ++ openTail msg := by simp [hwhole, openTail]
  calc hashBlocks (msg.length / 64 + 1) h (msg ++ [b])
      = hashBlocks (msg.length / 64 + 1) h (whole ++ (openTail msg ++ [b])) := by rw [← List.append_assoc, ← hmsg]
    _ = compress (hashBlocks (msg.length / 64) h whole) (beWords (openTail msg ++ [b])) := by
        rw [hashBlocks_append _ hlen, hashBlocks_one (by simp; omega)]
    _ = compress (hashBlocks (msg.length / 64) h msg) (beWords (openTail msg ++ [b])) := by
        rw [← hashBlocks_prefix (b := openTail msg) _ hlen.ge, ← hmsg]

/-- ABSORB_BYTE appends the byte to the message held. -/
theorem absorbByte_holds {e : Engine} {msg : List Byte} (b : Byte) (hh : e.Holds msg) :
    ∃ e', absorbByte e b = .ok e' ∧ e'.Holds (msg ++ [b]) := by
  have hr := holds_iff_ready.mp hh
  simp only [holds_iff_ready]
  by_cases hfull : msg.length % 64 = 63
  · have hcount : (msg ++ [b]).length / 64 = msg.length / 64 + 1 := by simp; omega
    have htail : openTail (msg ++ [b]) = [] := List.eq_nil_of_length_eq_zero (by simp; omega)
    rw [hcount, htail, Nat.mul_succ, BitVec.ofNat_add, hashBlocks_of_completed hInit b hfull]
    exact absorbByte_of_full b hr (by simpa using hfull)
  · have hcount : (msg ++ [b]).length / 64 = msg.length / 64 := by simp; omega
    have htail : openTail (msg ++ [b]) = openTail msg ++ [b] := by
      rw [openTail, hcount, List.drop_append_of_le_length (by omega), openTail]
    rw [hcount, htail, hashBlocks_prefix _ (by omega)]
    exact absorbByte_of_partial b hr (by simp; omega)

/-- The loop of UPDATE appends its bytes to the message held, and keeps the buffer canonical. -/
theorem absorb_holds (d : List Byte) {e : Engine} {msg : List Byte} (hh : e.Holds msg) :
    ∃ e', absorb e d = .ok e' ∧ e'.Holds (msg ++ d) ∧ (e.buf.wf = true → e'.buf.wf = true) := by
  induction d generalizing e msg with
  | nil => exact ⟨e, rfl, by simpa using hh, id⟩
  | cons b d ih =>
    obtain ⟨e₁, hb, hh₁⟩ := absorbByte_holds b hh
    obtain ⟨e₂, hd, hh₂, hwf⟩ := ih hh₁
    exact ⟨e₂, by simp only [absorb, hb, ok_bind, hd], by simpa using hh₂, fun h => hwf (absorbByte_wf hb h)⟩

/-- INIT starts the empty message. -/
theorem initEngine_holds (e : Engine) : (initEngine e).Holds [] :=
  ⟨rfl, rfl, rfl, rfl, beginsWith_nil _⟩

/-! ### FINAL on a ready engine (R130 to R132) -/

/-- R130 steps 4 to 6: after at most 56 bytes of a block come zeros and the length field, and the block is compressed. -/
theorem lastBlock_written {m : Memory} {bs : List Byte} (x : Digest) (len : BitVec 64) (h : BeginsWith m bs)
    (hbs : bs.length ≤ 56) :
    ∃ m₁ m₂, zeroFill m bs.length 56 = .ok m₁ ∧ memWrite m₁ 56 8 len = .ok m₂ ∧
      compressBuffer x m₂ = .ok (compress x (beWords (bs ++ List.replicate (56 - bs.length) 0#8 ++ splitBE 8 len))) ∧
      BeginsWith m₂ (bs ++ List.replicate (56 - bs.length) 0#8 ++ splitBE 8 len) ∧ (m.wf = true → m₂.wf = true) := by
  obtain ⟨m₁, hz, hb₁, hwf₁⟩ := zeroFill_beginsWith h hbs (by omega)
  have hlen : (bs ++ List.replicate (56 - bs.length) 0#8).length = 56 := by simp; omega
  obtain ⟨m₂, hw, hb₂, hwf₂⟩ := memWrite_beginsWith (n := 8) len hb₁ (by omega)
  rw [hlen] at hw
  exact ⟨m₁, m₂, hz, hw, compressBuffer_beginsWith x hb₂ (by simp; omega), hb₂, hwf₂ ∘ hwf₁⟩

/-- R132, first row: the tail and its padding are one block. -/
theorem append_padding_of_fits {tail : List Byte} (len : BitVec 64) (hfit : tail.length ≤ 55) :
    tail ++ padding tail.length len =
      tail ++ [0x80#8] ++ List.replicate (56 - (tail ++ [0x80#8]).length) 0#8 ++ splitBE 8 len := by
  simp [padding, hfit, show 56 - (tail.length + 1) = 55 - tail.length by omega]

/-- R132, second row: the tail, 0x80 and zeros are a block, and zeros and the length field another. -/
theorem append_padding_of_overflow {tail : List Byte} (len : BitVec 64) (hover : ¬ tail.length ≤ 55) :
    tail ++ padding tail.length len =
      (tail ++ [0x80#8] ++ List.replicate (64 - (tail ++ [0x80#8]).length) 0#8) ++
        ([] ++ List.replicate 56 0#8 ++ splitBE 8 len) := by
  simp [padding, hover, show 64 - (tail.length + 1) = 63 - tail.length by omega]

/-- R131: what follows the blocks before the last is one block. -/
theorem lastBlock_length {tail : List Byte} (len : BitVec 64) (hbound : tail.length < 64) :
    ((tail ++ padding tail.length len).drop (64 * (finalBlockCount tail.length - 1))).length = 64 := by
  by_cases hfit : tail.length ≤ 55
  · simp [padding, finalBlockCount, hfit]
    omega
  · simp [padding, finalBlockCount, hfit]
    omega

/-- FINAL's operation on a ready engine succeeds. It compresses the buffered tail and its padding, leaves the last block of them
in the buffer, and keeps the buffer canonical. -/
theorem finalize_of_ready {e : Engine} {tail : List Byte} {n : BitVec 64} {h : Digest} (hr : e.Ready tail n h) :
    ∃ e', finalize e = .ok (e', hashBlocks (finalBlockCount tail.length) h
        (tail ++ padding tail.length (n + BitVec.ofNat 64 (8 * tail.length)))) ∧
      BeginsWith e'.buf ((tail ++ padding tail.length (n + BitVec.ofNat 64 (8 * tail.length))).drop
        (64 * (finalBlockCount tail.length - 1))) ∧
      (e.buf.wf = true → e'.buf.wf = true) := by
  obtain ⟨-, hused, hbound, hn, hh, hbytes⟩ := hr
  generalize hlen : n + BitVec.ofNat 64 (8 * tail.length) = len
  obtain ⟨m₁, hm₁, hb₁, hwf₁⟩ := memWrite_beginsWith (n := 1) 0x80#8 hbytes (by omega)
  replace hb₁ : BeginsWith m₁ (tail ++ [0x80#8]) := by simpa [splitBE] using hb₁
  have hp₁ : (tail ++ [0x80#8]).length = tail.length + 1 := by simp
  by_cases hfit : tail.length ≤ 55
  · obtain ⟨m₂, m₃, hm₂, hm₃, hc, hb₃, hwf₃⟩ := lastBlock_written h len hb₁ (by omega)
    rw [hp₁] at hm₂
    rw [show finalBlockCount tail.length = 1 from if_pos hfit, append_padding_of_fits len hfit, hashBlocks_one (by simp; omega)]
    generalize compress h (beWords _) = d at hc ⊢
    refine ⟨{ life := .finalized, buf := m₃, used := none, bitlen := some len, digest := some d }, ?_, hb₃, hwf₃ ∘ hwf₁⟩
    have hp : ¬ tail.length + 1 > 56 := by omega
    simp only [finalize, hused, hn, hh, readElement, ok_bind, hm₁, padOverflow, if_neg hp, hm₂, hm₃, hlen, hc]
  · obtain ⟨m₂, hm₂, hb₂, hwf₂⟩ := zeroFill_beginsWith (q := 64) hb₁ (by omega) (by omega)
    have hblock : (tail ++ [0x80#8] ++ List.replicate (64 - (tail ++ [0x80#8]).length) 0#8).length = 64 := by simp; omega
    have hc₂ := compressBuffer_beginsWith h hb₂ hblock
    obtain ⟨m₃, m₄, hm₃, hm₄, hc₄, hb₄, hwf₄⟩ := lastBlock_written (compress h (beWords _)) len (beginsWith_nil m₂) (by simp)
    simp only [List.length_nil, Nat.sub_zero] at hm₃ hc₄ hb₄
    rw [hp₁] at hm₂
    rw [show finalBlockCount tail.length = 1 + 1 from if_neg hfit, append_padding_of_overflow len hfit,
      hashBlocks_append 1 hblock, hashBlocks_one hblock, hashBlocks_one (by simp), List.drop_left' (by omega)]
    generalize compress (compress h (beWords _)) (beWords _) = d at hc₄ ⊢
    refine ⟨{ life := .finalized, buf := m₄, used := none, bitlen := some len, digest := some d }, ?_, hb₄, hwf₄ ∘ hwf₂ ∘ hwf₁⟩
    have hp : tail.length + 1 > 56 := by omega
    simp only [finalize, hused, hn, hh, readElement, ok_bind, hm₁, padOverflow, if_pos hp, hm₂, hc₂, hm₃, hm₄, hlen, hc₄]

/-! ### A step is local to the engine it addresses (R172)

What an event does is a function of the event and of the engine it addresses. The lemmas `exec_eq_deliver` and `step_eq_deliver`
say that the model's step is that function put to work in the platform. -/

/-- What an event makes of the engine it addresses, with its response if there is one; or why there is neither. -/
abbrev Verdict := Host.Outcome (Engine × Option Response) Fault Refusal

/-- The verdict on UPDATE (R82, R164). -/
def updateVerdict (p : Bool) (c : Command) (e : Engine) : Verdict :=
  if e.life ≠ .active then .next (e, some (plainResponse .invalidState))
  else if negativeLen c then .next (e, some (plainResponse .invalidArgument))
  else if nullNonzero p c then .next (e, some (plainResponse .invalidArgument))
  else if dataMismatch p c then .refused .dataLength
  else
    match absorb e (messageBytes p c) with
    | .ok e' => .next (e', some (plainResponse .ok))
    | .error f => .fault f

/-- The verdict on FINAL (R130). -/
def finalVerdict (e : Engine) : Verdict :=
  if e.life ≠ .active then .next (e, some (plainResponse .invalidState))
  else
    match finalize e with
    | .ok (e', d) => .next (e', some (digestResponse (digestBytes d)))
    | .error f => .fault f

/-- The verdict on a decoded command. -/
def commandVerdict (c : Command) (e : Engine) : Instr → Verdict
  | .init => .next (initEngine e, some (plainResponse .ok))
  | .update p => updateVerdict p c e
  | .final => finalVerdict e

/-- The verdict on a transaction: the duties of R183, then decoding. -/
def transactionVerdict (t : Transaction) (e : Engine) : Verdict :=
  match t.turn with
  | .beforeResponse => .refused .commandOutstanding
  | .secondHost => .refused .secondHost
  | .inTurn =>
    match decode t.command.cmd with
    | .error _ => .next (e, some (plainResponse .illegalCommand))
    | .ok i => commandVerdict t.command e i

/-- The verdict on a host event. A reset gives no response (R181). -/
def eventVerdict (e : Engine) : HostEvent → Verdict
  | .reset _ => .next (Engine.reset, none)
  | .issue t => transactionVerdict t e

/-- The platform after the head event, to engine `n`, changed that engine to `e` and was answered with `r`, if with anything. -/
def afterEvent (s : State) (n : Nat) (e : Engine) (r : Option Response) : State :=
  { engines := s.engines.set n e
    inputs := s.inputs.tail
    responses := s.responses ++ r.toList.map fun r => { engine := n, response := r } }

/-- The verdict of engine `n` put to work in the platform. -/
def deliver (s : State) (n : Nat) : Verdict → Host.Outcome State Fault Refusal
  | .next (e, r) => .next (afterEvent s n e r)
  | .fault f => .fault f
  | .refused r => .refused r

theorem set_engine_self {s : State} {n : Nat} {e : Engine} (h : s.engines[n]? = some e) : s.engines.set n e = s.engines := by
  obtain ⟨hn, rfl⟩ := List.getElem?_eq_some_iff.mp h
  exact List.set_getElem_self hn

/-- An error answer is the verdict that leaves the engine as it is. -/
theorem raise_eq_deliver {s : State} {n : Nat} {e : Engine} (h : s.engines[n]? = some e) (st : Status) :
    raise s n st = deliver s n (.next (e, some (plainResponse st))) := by
  simp [raise, answer, deliver, afterEvent, set_engine_self h]

theorem exec_eq_deliver {s : State} {t : Transaction} {e : Engine} (hp : Presents s t e) (i : Instr) :
    exec i s = deliver s t.engine (commandVerdict t.command e i) := by
  cases i with
  | init => exact withTransaction_of_presents hp _
  | update p =>
    simp only [exec, execUpdate, withTransaction_of_presents hp, commandVerdict, updateVerdict, raise_eq_deliver hp.2]
    split_ifs
    · rfl
    · rfl
    · rfl
    · rfl
    · cases absorb e (messageBytes p t.command) <;> rfl
  | final =>
    simp only [exec, execFinal, withTransaction_of_presents hp, commandVerdict, finalVerdict, raise_eq_deliver hp.2]
    split_ifs
    · rfl
    · cases finalize e <;> rfl

theorem step_eq_deliver {s : State} {ev : HostEvent} {rest : List HostEvent} {e : Engine} (hin : s.inputs = ev :: rest)
    (he : s.engines[ev.engine]? = some e) : step s = deliver s ev.engine (eventVerdict e ev) := by
  cases ev with
  | reset n =>
    replace he : s.engines[n]? = some e := he
    simp [step, runEvent, hin, resetEngine, he, eventVerdict, deliver, afterEvent, HostEvent.engine]
  | issue t =>
    have hp : Presents s t e := ⟨by simp [hin], he⟩
    cases ht : t.turn with
    | beforeResponse => simp [step, runEvent, hin, runTransaction, eventVerdict, transactionVerdict, deliver, ht]
    | secondHost => simp [step, runEvent, hin, runTransaction, eventVerdict, transactionVerdict, deliver, ht]
    | inTurn =>
      rw [step_of_presents hp ht]
      cases hd : decode t.command.cmd with
      | error r => simpa only [eventVerdict, transactionVerdict, HostEvent.engine, ht, hd] using raise_eq_deliver hp.2 .illegalCommand
      | ok i => simpa only [eventVerdict, transactionVerdict, HostEvent.engine, ht, hd] using exec_eq_deliver hp i

/-- How an event to an absent engine is refused (log 7). A breach of the host's duty comes first (log 8). -/
def absentRefusal : HostEvent → Refusal
  | .reset n => .noSuchEngine n
  | .issue t =>
    match t.turn with
    | .beforeResponse => .commandOutstanding
    | .secondHost => .secondHost
    | .inTurn => .noSuchEngine t.engine

theorem step_of_absent {s : State} {ev : HostEvent} {rest : List HostEvent} (hin : s.inputs = ev :: rest)
    (he : s.engines[ev.engine]? = none) : step s = .refused (absentRefusal ev) := by
  cases ev with
  | reset n =>
    replace he : s.engines[n]? = none := he
    simp [step, runEvent, hin, resetEngine, he, absentRefusal]
  | issue t =>
    replace he : s.engines[t.engine]? = none := he
    cases ht : t.turn <;> simp [step, runEvent, hin, runTransaction, ht, he, absentRefusal]

theorem step_of_idle {s : State} (hin : s.inputs = []) : step s = .next s := by
  simp [step, runEvent, hin]

/-- A step on an event that goes on: the addressed engine exists, and its verdict is a new engine and perhaps a response. -/
theorem eventVerdict_of_step_next {s s' : State} {ev : HostEvent} {rest : List HostEvent} (hin : s.inputs = ev :: rest)
    (h : step s = .next s') :
    ∃ e e' r, s.engines[ev.engine]? = some e ∧ eventVerdict e ev = .next (e', r) ∧ s' = afterEvent s ev.engine e' r := by
  cases he : s.engines[ev.engine]? with
  | none => rw [step_of_absent hin he] at h; cases h
  | some e =>
    rw [step_eq_deliver hin he] at h
    cases hv : eventVerdict e ev with
    | next er => rw [hv] at h; exact ⟨e, er.1, er.2, rfl, hv, by simpa [deliver] using h.symm⟩
    | fault f => rw [hv] at h; cases h
    | refused r => rw [hv] at h; cases h

/-! ### The invariant is kept, and no step faults under it -/

/-- A canonical engine that holds a message meets the invariant. -/
theorem inv_of_holds {e : Engine} {msg : List Byte} (hwf : e.buf.wf = true) (hh : e.Holds msg) : e.Inv where
  wf := hwf
  uninit h := by simp [hh.life] at h
  active _ := ⟨msg, hh⟩
  finalized h := by simp [hh.life] at h

/-- FINAL's operation on a canonical engine that holds a message succeeds, and the engine after it meets the invariant (R35). -/
theorem finalize_inv {e : Engine} {msg : List Byte} (hwf : e.buf.wf = true) (hh : e.Holds msg) :
    ∃ e' d, finalize e = .ok (e', d) ∧ e'.Inv := by
  obtain ⟨e', he, hbegin, hwf'⟩ := finalize_of_ready (holds_iff_ready.mp hh)
  obtain ⟨hlife, hused, hdigest, _, n, -, -, hbitlen⟩ := finalize_ok he
  exact ⟨e', _, he,
    { wf := hwf' hwf
      uninit := fun h => by simp [hlife] at h
      active := fun h => by simp [hlife] at h
      finalized := fun _ => ⟨hused, by simp [hbitlen], by simp [hdigest], fun a ha =>
        isSome_read_of_beginsWith hbegin (lastBlock_length _ (by simp; omega)) ha⟩ }⟩

/-- A verdict the invariant allows: no fault, and an engine that meets the invariant again. -/
def VerdictKeepsInv : Verdict → Prop
  | .next (e, _) => e.Inv
  | .fault _ => False
  | .refused _ => True

theorem updateVerdict_keepsInv {e : Engine} (h : e.Inv) (p : Bool) (c : Command) : VerdictKeepsInv (updateVerdict p c e) := by
  unfold updateVerdict
  split_ifs with hl
  · exact h
  · exact h
  · exact h
  · trivial
  · obtain ⟨msg, hh⟩ := h.active (not_not.mp hl)
    obtain ⟨e', he, hh', hwf⟩ := absorb_holds (messageBytes p c) hh
    rw [he]
    exact inv_of_holds (hwf h.wf) hh'

theorem finalVerdict_keepsInv {e : Engine} (h : e.Inv) : VerdictKeepsInv (finalVerdict e) := by
  unfold finalVerdict
  split_ifs with hl
  · exact h
  · obtain ⟨msg, hh⟩ := h.active (not_not.mp hl)
    obtain ⟨e', d, he, hinv⟩ := finalize_inv h.wf hh
    rw [he]
    exact hinv

theorem commandVerdict_keepsInv {e : Engine} (h : e.Inv) (c : Command) : ∀ i, VerdictKeepsInv (commandVerdict c e i)
  | .init => inv_of_holds h.wf (initEngine_holds e)
  | .update p => updateVerdict_keepsInv h p c
  | .final => finalVerdict_keepsInv h

theorem eventVerdict_keepsInv {e : Engine} (h : e.Inv) (ev : HostEvent) : VerdictKeepsInv (eventVerdict e ev) := by
  cases ev with
  | reset n => exact Scope.engineReset_inv
  | issue t =>
    change VerdictKeepsInv (transactionVerdict t e)
    unfold transactionVerdict
    cases t.turn with
    | beforeResponse => trivial
    | secondHost => trivial
    | inTurn =>
      cases decode t.command.cmd with
      | error r => exact h
      | ok i => exact commandVerdict_keepsInv h t.command i

theorem inv_of_getElem? {s : State} (h : s.Inv) {n : Nat} {e : Engine} (he : s.engines[n]? = some e) : e.Inv :=
  h.engines e (List.mem_of_getElem? he)

theorem afterEvent_inv {s : State} {e : Engine} (hs : s.Inv) (he : e.Inv) (n : Nat) (r : Option Response) :
    (afterEvent s n e r).Inv where
  engines e' hmem := by
    rcases List.mem_or_eq_of_mem_set hmem with hold | rfl
    · exact hs.engines e' hold
    · exact he
  count := by simpa [afterEvent] using hs.count

/-- Settles O31: the verdict of the addressed engine keeps its invariant, and no other engine changes. -/
theorem stepKeepsInvariant : Obligations.StepKeepsInvariant := by
  unfold Obligations.StepKeepsInvariant
  intro s s' hs h
  cases hin : s.inputs with
  | nil =>
    rw [step_of_idle hin] at h
    cases h
    exact hs
  | cons ev rest =>
    obtain ⟨e, e', r, he, hv, rfl⟩ := eventVerdict_of_step_next hin h
    have hkept := eventVerdict_keepsInv (inv_of_getElem? hs he) ev
    rw [hv] at hkept
    exact afterEvent_inv hs hkept _ r

/-- Settles O32: an idle step and an event to an absent engine do not fault, and the verdict of an engine that meets the invariant
is no fault. -/
theorem invariantRulesOutFaults : Obligations.InvariantRulesOutFaults := by
  unfold Obligations.InvariantRulesOutFaults
  intro s f hs h
  cases hin : s.inputs with
  | nil => rw [step_of_idle hin] at h; cases h
  | cons ev rest =>
    cases he : s.engines[ev.engine]? with
    | none => rw [step_of_absent hin he] at h; cases h
    | some e =>
      have hkept := eventVerdict_keepsInv (inv_of_getElem? hs he) ev
      rw [step_eq_deliver hin he] at h
      cases hv : eventVerdict e ev with
      | next er => rw [hv] at h; cases h
      | fault g => rw [hv] at hkept; exact hkept
      | refused r => rw [hv] at h; cases h

/-! ### How `life` moves (R22) -/

/-- UPDATE never moves `life`. -/
theorem updateVerdict_life {p : Bool} {c : Command} {e e' : Engine} {r : Option Response}
    (h : updateVerdict p c e = .next (e', r)) : e'.life = e.life := by
  unfold updateVerdict at h
  split_ifs at h
  · cases h; rfl
  · cases h; rfl
  · cases h; rfl
  · cases ha : absorb e (messageBytes p c) with
    | error f => rw [ha] at h; cases h
    | ok e₁ => rw [ha] at h; cases h; exact absorb_life ha

/-- FINAL moves ACTIVE to FINALIZED and nothing else. -/
theorem finalVerdict_life {e e' : Engine} {r : Option Response} (h : finalVerdict e = .next (e', r)) :
    e'.life = if e.life = .active then .finalized else e.life := by
  unfold finalVerdict at h
  split_ifs at h with hl
  · cases h; exact (if_neg hl).symm
  · rw [if_pos (not_not.mp hl)]
    cases hf : finalize e with
    | error f => rw [hf] at h; cases h
    | ok ed => rw [hf] at h; cases h; exact (finalize_ok hf).1

theorem eventVerdict_life {e e' : Engine} {ev : HostEvent} {r : Option Response} (h : eventVerdict e ev = .next (e', r)) :
    e'.life = lifeAfter ev.engine ev e.life := by
  cases ev with
  | reset n => cases h; simp [lifeAfter, HostEvent.engine]
  | issue t =>
    simp only [lifeAfter, HostEvent.engine, if_pos]
    unfold eventVerdict transactionVerdict at h
    cases ht : t.turn with
    | beforeResponse => simp [ht] at h
    | secondHost => simp [ht] at h
    | inTurn =>
      cases hd : decode t.command.cmd with
      | error f => simp only [ht, hd] at h; cases h; rfl
      | ok i =>
        simp only [ht, hd] at h
        cases i with
        | init => cases h; rfl
        | update p => exact updateVerdict_life h
        | final => exact finalVerdict_life h

/-- An event leaves the `life` of the engines it does not address. -/
theorem lifeAfter_of_ne {n : Nat} {ev : HostEvent} (h : ev.engine ≠ n) (l : Life) : lifeAfter n ev l = l := by
  cases ev with
  | reset m => exact if_neg h
  | issue t => exact if_neg h

/-- Settles O24: the verdict moves the addressed engine as the table says, and no other engine changes. -/
theorem lifeFollowsTable : Obligations.LifeFollowsTable := by
  unfold Obligations.LifeFollowsTable
  intro s s' ev rest n e hin h he
  obtain ⟨e₀, e', r, he₀, hv, rfl⟩ := eventVerdict_of_step_next hin h
  by_cases hn : ev.engine = n
  · subst hn
    obtain rfl : e₀ = e := by simpa [he₀] using he
    have hlt := (List.getElem?_eq_some_iff.mp he).1
    exact ⟨e', by simp [afterEvent, hlt], eventVerdict_life hv⟩
  · exact ⟨e, by simp [afterEvent, List.getElem?_set_ne hn, he], (lifeAfter_of_ne hn _).symm⟩

/-! ### Earlier responses are never read (R29, R166) -/

/-- Settles O29: the verdict is a function of the event and the engine, and the responses are in neither. -/
theorem responsesAreNeverRead : Obligations.ResponsesAreNeverRead := by
  unfold Obligations.ResponsesAreNeverRead
  intro s s' other h
  cases hin : s.inputs with
  | nil =>
    rw [step_of_idle hin] at h
    cases h
    exact ⟨[], by simp, by simpa [hin] using step_of_idle (s := { s with responses := other }) hin⟩
  | cons ev rest =>
    obtain ⟨e, e', r, he, hv, rfl⟩ := eventVerdict_of_step_next hin h
    refine ⟨r.toList.map fun r => { engine := ev.engine, response := r }, rfl, ?_⟩
    rw [← hin, step_eq_deliver (s := { s with responses := other }) hin he, hv]
    rfl

/-! ### Dead state is never observed (R34)

The same frontier serves here: every write goes to the first offset at which two buffers may differ, and a block is read when they
agree on all of it. -/

/-- The buffers read alike below an offset. -/
def AgreeBelow (p : Nat) (m m' : Memory) : Prop := ∀ i, i < p → m.read i = m'.read i

/-- Results of one kind: values in a relation, or the same fault. -/
inductive SameResult {α : Type} (R : α → α → Prop) : Except Fault α → Except Fault α → Prop
  | ok {a a' : α} (h : R a a') : SameResult R (.ok a) (.ok a')
  | error (f : Fault) : SameResult R (.error f) (.error f)

/-- Sequencing keeps results of one kind. -/
theorem SameResult.bind {α β : Type} {R : α → α → Prop} {S : β → β → Prop} {x x' : Except Fault α} {f f' : α → Except Fault β}
    (h : SameResult R x x') (hf : ∀ a a', R a a' → SameResult S (f a) (f' a')) : SameResult S (x >>= f) (x' >>= f') := by
  cases h with
  | ok ha => exact hf _ _ ha
  | error r => exact .error r

/-- A step both sides do alike. -/
theorem SameResult.bind_same {α β : Type} {S : β → β → Prop} (x : Except Fault α) {f f' : α → Except Fault β}
    (hf : ∀ a, SameResult S (f a) (f' a)) : SameResult S (x >>= f) (x >>= f') := by
  cases x with
  | ok a => exact hf a
  | error r => exact .error r

theorem SameResult.imp {α : Type} {R S : α → α → Prop} {x x' : Except Fault α} (h : SameResult R x x')
    (hRS : ∀ a a', R a a' → S a a') : SameResult S x x' := by
  cases h with
  | ok ha => exact .ok (hRS _ _ ha)
  | error f => exact .error f

theorem writeByte_agree {p : Nat} {m m' : Memory} (b : Byte) (h : AgreeBelow p m m') :
    SameResult (AgreeBelow (p + 1)) (writeByte m p b) (writeByte m' p b) := by
  unfold writeByte
  split_ifs with hp
  · refine .ok fun i hi => ?_
    simp only [Memory.read_write]
    split_ifs with hip
    · rfl
    · exact h i (by omega)
  · exact .error _

/-- Bytes written at the frontier move it past them. -/
theorem writeBytes_agree (bs : List Byte) {p : Nat} {m m' : Memory} (h : AgreeBelow p m m') :
    SameResult (AgreeBelow (p + bs.length)) (writeBytes m p bs) (writeBytes m' p bs) := by
  induction bs generalizing p m m' with
  | nil => exact .ok h
  | cons b bs ih =>
    rw [List.length_cons, Nat.add_comm bs.length, ← Nat.add_assoc]
    exact (writeByte_agree b h).bind fun _ _ => ih

theorem memWrite_agree {p n : Nat} {m m' : Memory} (v : BitVec (8 * n)) (h : AgreeBelow p m m') :
    SameResult (AgreeBelow (p + n)) (memWrite m p n v) (memWrite m' p n v) := by
  have hw := writeBytes_agree (splitBE n v) h
  rwa [splitBE_length] at hw

theorem zeroFill_agree {p : Nat} (q : Nat) {m m' : Memory} (h : AgreeBelow p m m') :
    SameResult (AgreeBelow q) (zeroFill m p q) (zeroFill m' p q) := by
  refine (writeBytes_agree (List.replicate (q - p) 0#8) h).imp fun m₁ m₁' h₁ i hi => h₁ i ?_
  rw [List.length_replicate]
  omega

theorem compressBuffer_agree {m m' : Memory} (h : AgreeBelow 64 m m') (x : Digest) :
    compressBuffer x m = compressBuffer x m' := by
  simp only [compressBuffer, blockWords_congr h]

/-- Engines with the same counts and `H` whose buffers agree below `used`. -/
theorem sameLive_of_agree {u : Nat} {m m' : Memory} (h : AgreeBelow u m m') (l : Life) (n : Option (BitVec 64))
    (x : Option Digest) : Engine.SameLive { life := l, buf := m, used := some u, bitlen := n, digest := x }
      { life := l, buf := m', used := some u, bitlen := n, digest := x } where
  life := rfl
  used _ := rfl
  bitlen _ := rfl
  digest _ := rfl
  bytes _ u' hu := by cases hu; exact h

theorem sameLive_of_not_active {e e' : Engine} (h : e.life = e'.life) (hl : e.life ≠ .active) : e.SameLive e' where
  life := h
  used ha := absurd ha hl
  bitlen ha := absurd ha hl
  digest ha := absurd ha hl
  bytes ha := absurd ha hl

/-- ABSORB_BYTE on two ACTIVE engines that differ in dead state only. -/
theorem absorbByte_sameLive {e e' : Engine} (b : Byte) (h : e.SameLive e') (hl : e.life = .active) :
    SameResult (fun e₁ e₁' => e₁.SameLive e₁' ∧ e₁.life = .active) (absorbByte e b) (absorbByte e' b) := by
  simp only [absorbByte, ← h.used hl, ← h.bitlen hl, ← h.digest hl, ← h.life]
  cases hu : e.used with
  | none => exact .error _
  | some u =>
    refine (memWrite_agree (n := 1) b (h.bytes hl u hu)).bind fun m m' hm => ?_
    split_ifs with h64
    · simp only [compressBuffer_agree (h64 ▸ hm)]
      exact .bind_same _ fun x => .bind_same _ fun y => .bind_same _ fun n =>
        .ok ⟨sameLive_of_agree (fun _ h0 => absurd h0 (Nat.not_lt_zero _)) _ _ _, hl⟩
    · exact .ok ⟨sameLive_of_agree hm _ _ _, hl⟩

theorem absorb_sameLive (d : List Byte) {e e' : Engine} (h : e.SameLive e') (hl : e.life = .active) :
    SameResult Engine.SameLive (absorb e d) (absorb e' d) := by
  induction d generalizing e e' with
  | nil => exact .ok h
  | cons b d ih => exact (absorbByte_sameLive b h hl).bind fun _ _ h₁ => ih h₁.1 h₁.2

/-- R130 step 3 on buffers that agree below the write pointer: they agree below the new one, and all else is equal. -/
theorem padOverflow_agree {p : Nat} {m m' : Memory} (x : Digest) (h : AgreeBelow p m m') :
    SameResult (fun r r' => AgreeBelow r.2.2 r.1 r'.1 ∧ r.2 = r'.2) (padOverflow m x p) (padOverflow m' x p) := by
  unfold padOverflow
  split_ifs
  · refine (zeroFill_agree 64 h).bind fun m₁ m₁' h₁ => ?_
    rw [compressBuffer_agree h₁]
    exact .bind_same _ fun y => .ok ⟨fun _ h0 => absurd h0 (Nat.not_lt_zero _), rfl⟩
  · exact .ok ⟨h, rfl⟩

/-- FINAL's operation on two ACTIVE engines that differ in dead state only: the same digest, and engines that again do. -/
theorem finalize_sameLive {e e' : Engine} (h : e.SameLive e') (hl : e.life = .active) :
    SameResult (fun r r' => r.1.SameLive r'.1 ∧ r.2 = r'.2) (finalize e) (finalize e') := by
  simp only [finalize, ← h.used hl, ← h.bitlen hl, ← h.digest hl]
  cases hu : e.used with
  | none => exact .error _
  | some u =>
    simp only [readElement, ok_bind]
    refine .bind_same _ fun n => .bind_same _ fun x => ?_
    refine (memWrite_agree (n := 1) 0x80#8 (h.bytes hl u hu)).bind fun m₁ m₁' h₁ => ?_
    refine (padOverflow_agree x h₁).bind fun ⟨m₂, x₂, p⟩ ⟨m₂', _, _⟩ ⟨h₂, hxp⟩ => ?_
    cases hxp
    refine (zeroFill_agree 56 h₂).bind fun m₃ m₃' h₃ => ?_
    refine (memWrite_agree (n := 8) _ h₃).bind fun m₄ m₄' h₄ => ?_
    rw [compressBuffer_agree h₄]
    exact .bind_same _ fun y => .ok ⟨sameLive_of_not_active rfl (by simp), rfl⟩

/-- Verdicts of one kind: the same response from engines that differ in dead state only, or the same stop. -/
inductive SameVerdict : Verdict → Verdict → Prop
  | next {e e' : Engine} (r : Option Response) (h : e.SameLive e') : SameVerdict (.next (e, r)) (.next (e', r))
  | fault (f : Fault) : SameVerdict (.fault f) (.fault f)
  | refused (r : Refusal) : SameVerdict (.refused r) (.refused r)

theorem updateVerdict_sameLive {e e' : Engine} (h : e.SameLive e') (p : Bool) (c : Command) :
    SameVerdict (updateVerdict p c e) (updateVerdict p c e') := by
  simp only [updateVerdict, ← h.life]
  split_ifs with hl
  · exact .next _ h
  · exact .next _ h
  · exact .next _ h
  · exact .refused _
  · have hres := absorb_sameLive (messageBytes p c) h (not_not.mp hl)
    generalize absorb e _ = x, absorb e' _ = x' at hres ⊢
    cases hres with
    | ok h' => exact .next _ h'
    | error f => exact .fault f

theorem finalVerdict_sameLive {e e' : Engine} (h : e.SameLive e') : SameVerdict (finalVerdict e) (finalVerdict e') := by
  simp only [finalVerdict, ← h.life]
  split_ifs with hl
  · exact .next _ h
  · have hres := finalize_sameLive h (not_not.mp hl)
    generalize finalize e = x, finalize e' = x' at hres ⊢
    cases hres with
    | ok h' =>
      obtain ⟨hlive, hd⟩ := h'
      simp only [hd]
      exact .next _ hlive
    | error f => exact .fault f

/-- INIT makes all state live, and the same in both. -/
theorem initEngine_sameLive (e e' : Engine) : (initEngine e).SameLive (initEngine e') :=
  sameLive_of_agree (fun _ h0 => absurd h0 (Nat.not_lt_zero _)) _ _ _

theorem eventVerdict_sameLive {e e' : Engine} (h : e.SameLive e') (ev : HostEvent) :
    SameVerdict (eventVerdict e ev) (eventVerdict e' ev) := by
  cases ev with
  | reset n => exact .next _ (sameLive_of_not_active rfl (by simp))
  | issue t =>
    simp only [eventVerdict, transactionVerdict]
    cases t.turn with
    | beforeResponse => exact .refused _
    | secondHost => exact .refused _
    | inTurn =>
      cases decode t.command.cmd with
      | error r => exact .next _ h
      | ok i =>
        cases i with
        | init => exact .next _ (initEngine_sameLive e e')
        | update p => exact updateVerdict_sameLive h p t.command
        | final => exact finalVerdict_sameLive h

/-- Two platforms that differ in dead state only have an engine at the same places, and at each two that no command can tell
apart. -/
theorem engine_sameLive {l l' : List Engine} (h : List.Forall₂ Engine.SameLive l l') (n : Nat) :
    (l[n]? = none ∧ l'[n]? = none) ∨ ∃ e e', l[n]? = some e ∧ l'[n]? = some e' ∧ e.SameLive e' := by
  induction h generalizing n with
  | nil => exact .inl ⟨rfl, rfl⟩
  | cons he _ ih =>
    cases n with
    | zero => exact .inr ⟨_, _, rfl, rfl, he⟩
    | succ n => exact ih n

theorem set_sameLive {l l' : List Engine} {e e' : Engine} (h : List.Forall₂ Engine.SameLive l l') (he : e.SameLive e') (n : Nat) :
    List.Forall₂ Engine.SameLive (l.set n e) (l'.set n e') := by
  induction h generalizing n with
  | nil => exact .nil
  | cons hd tl ih =>
    cases n with
    | zero => exact .cons he tl
    | succ n => exact .cons hd (ih n)

/-- Verdicts of one kind, put to work in platforms that differ in dead state only, give outcomes of one kind. -/
theorem deliver_sameOutcome {s s' : State} {v v' : Verdict} (h : s.SameLive s') (n : Nat) (hv : SameVerdict v v') :
    sameOutcome (deliver s n v) (deliver s' n v') := by
  cases hv with
  | next r he =>
    exact
      { inputs := congrArg List.tail h.inputs
        responses := congrArg (· ++ _) h.responses
        engines := set_sameLive h.engines he n }
  | fault f => rfl
  | refused r => rfl

/-- Settles O33: the addressed engines are both absent, or their verdicts are of one kind. -/
theorem deadStateIsUnobservable : Obligations.DeadStateIsUnobservable := by
  unfold Obligations.DeadStateIsUnobservable
  intro s s' h
  cases hin : s.inputs with
  | nil =>
    rw [step_of_idle hin, step_of_idle (h.inputs ▸ hin)]
    exact h
  | cons ev rest =>
    have hin' : s'.inputs = ev :: rest := h.inputs ▸ hin
    rcases engine_sameLive h.engines ev.engine with ⟨he, he'⟩ | ⟨e, e', he, he', hlive⟩
    · rw [step_of_absent hin he, step_of_absent hin' he']
      rfl
    · rw [step_eq_deliver hin he, step_eq_deliver hin' he']
      exact deliver_sameOutcome h ev.engine (eventVerdict_sameLive hlive ev)

/-! ### Accesses outside the buffer, and bytes without a value (R32, R42) -/

theorem readByte_outside (m : Memory) {a : Nat} (h : 64 ≤ a) : readByte m a = .error (.outsideBuffer a) := if_neg (by omega)

theorem writeByte_outside (m : Memory) {a : Nat} (b : Byte) (h : 64 ≤ a) : writeByte m a b = .error (.outsideBuffer a) :=
  if_neg (by omega)

theorem readByte_noValue {m : Memory} {a : Nat} (ha : a < 64) (h : m.read a = none) :
    readByte m a = .error (.readNoValue (.bufByte a)) := by
  simp [readByte, ha, h]

/-- Settles O47, offset by offset. -/
theorem missingBytesFault : Obligations.MissingBytesFault := by
  unfold Obligations.MissingBytesFault
  exact ⟨fun m _ b h => ⟨readByte_outside m h, writeByte_outside m b h⟩, fun _ _ ha h => readByte_noValue ha h⟩

end Sys2Proof.Proofs.EngineState
end

section
/-! PROOFS. The block buffer and byte order (20_memory.md): what a write stores and a read gives, the words, the length field and the
digest; the order in which UPDATE stores its bytes; and INIT repeated. -/

namespace Sys2Proof.Proofs.BlockBuffer

open Sys2Proof Sys2Proof.Machine

/-! ### Where UPDATE stores its bytes (R44, R80, R82) -/

/-- ABSORB_BYTE writes one byte, at `used`, and `used` goes round the 64 offsets. -/
theorem absorbByte_stores {e e' : Engine} {b : Byte} {u : Nat} (hu : e.used = some u) (h : absorbByte e b = .ok e') :
    u < 64 ∧ e'.buf = e.buf.write u b ∧ e'.used = some ((u + 1) % 64) := by
  obtain ⟨u', hu', hlt, -, hbuf, hcase⟩ := absorbByte_ok h
  obtain rfl : u = u' := by simpa [hu] using hu'
  refine ⟨hlt, hbuf, ?_⟩
  rcases hcase with ⟨hne, hused, -⟩ | ⟨rfl, hused, -⟩
  · rw [hused, Nat.mod_eq_of_lt (by omega)]
  · exact hused

theorem absorb_cons_ok {e e' : Engine} {b : Byte} {d : List Byte} (h : absorb e (b :: d) = .ok e') :
    ∃ e₁, absorbByte e b = .ok e₁ ∧ absorb e₁ d = .ok e' := by
  rw [absorb] at h
  cases hb : absorbByte e b with
  | error f => rw [hb, error_bind] at h; cases h
  | ok e₁ => rw [hb, ok_bind] at h; exact ⟨e₁, rfl, h⟩

/-- The frame of the loop: an offset that no byte is stored to reads as before. -/
theorem absorb_read_of_not_stored {d : List Byte} {e e' : Engine} {u a : Nat} (hu : e.used = some u)
    (h : absorb e d = .ok e') (ha : ∀ k, k < d.length → (u + k) % 64 ≠ a) : e'.buf.read a = e.buf.read a := by
  induction d generalizing e u with
  | nil => cases h; rfl
  | cons b d ih =>
    obtain ⟨e₁, hb, hd⟩ := absorb_cons_ok h
    obtain ⟨hlt, hbuf, hused⟩ := absorbByte_stores hu hb
    have hfirst := ha 0 (by simp)
    rw [ih hused hd fun k hk => ?_, hbuf, Memory.read_write_other _ _ (by omega)]
    have hnext := ha (k + 1) (by simpa using hk)
    omega

/-- Of the last 64 bytes each reads back where it was stored: those after it go to other offsets. -/
theorem absorb_read_of_stored {d : List Byte} {e e' : Engine} {u k : Nat} (hu : e.used = some u)
    (h : absorb e d = .ok e') (hk : k < d.length) (hlast : d.length ≤ k + 64) : e'.buf.read ((u + k) % 64) = d[k]? := by
  induction d generalizing e u k with
  | nil => simp at hk
  | cons b d ih =>
    obtain ⟨e₁, hb, hd⟩ := absorb_cons_ok h
    obtain ⟨hlt, hbuf, hused⟩ := absorbByte_stores hu hb
    simp only [List.length_cons] at hk hlast
    cases k with
    | zero =>
      rw [Nat.add_zero, Nat.mod_eq_of_lt hlt, absorb_read_of_not_stored hused hd fun j hj => by omega, hbuf]
      exact Memory.read_write_same _ _ _
    | succ k =>
      rw [show (u + (k + 1)) % 64 = ((u + 1) % 64 + k) % 64 by omega, ih hused hd (by omega) (by omega)]
      rfl

/-- ABSORB_BYTE succeeds on a ready engine and leaves a ready one. -/
theorem absorbByte_ready {e : Engine} {tail : List Byte} {n : BitVec 64} {h : Digest} (b : Byte) (hr : e.Ready tail n h) :
    ∃ e' tail' n' h', absorbByte e b = .ok e' ∧ e'.Ready tail' n' h' := by
  by_cases hfull : tail.length = 63
  · obtain ⟨e', hb, hr'⟩ := EngineState.absorbByte_of_full b hr hfull
    exact ⟨e', _, _, _, hb, hr'⟩
  · obtain ⟨e', hb, hr'⟩ := EngineState.absorbByte_of_partial b hr (by have := hr.bound; omega)
    exact ⟨e', _, _, _, hb, hr'⟩

/-- The loop of UPDATE succeeds on every ready engine. -/
theorem absorb_succeeds (d : List Byte) {e : Engine} {tail : List Byte} {n : BitVec 64} {h : Digest} (hr : e.Ready tail n h) :
    ∃ e', absorb e d = .ok e' := by
  induction d generalizing e tail n h with
  | nil => exact ⟨e, rfl⟩
  | cons b d ih =>
    obtain ⟨e₁, _, _, _, hb, hr₁⟩ := absorbByte_ready b hr
    obtain ⟨e', hd⟩ := ih hr₁
    exact ⟨e', by rw [absorb, hb, ok_bind, hd]⟩

/-- UPDATE with data present, all its checks passed, is the loop over DATA and the answer OK. -/
theorem exec_update_of_absorb {s : State} {t : Transaction} {e e' : Engine} (hp : Presents s t e) (hlife : e.life = .active)
    (hlen : (t.command.data.length : Int) = t.command.len.toInt) (ha : absorb e t.command.data = .ok e') :
    exec (.update true) s = .next (respond s t.engine e' (plainResponse .ok)) := by
  have hneg : negativeLen t.command = false := by simp [negativeLen, signedLen, ← hlen]
  have hnull : nullNonzero true t.command = false := rfl
  have hmatch : dataMismatch true t.command = false := by simp [dataMismatch, signedLen, hlen]
  have hbytes : messageBytes true t.command = t.command.data := rfl
  simp [exec, execUpdate, withTransaction_of_presents hp, hlife, hneg, hnull, hmatch, hbytes, ha]

/-- Settles O17: the loop over DATA succeeds on a ready engine, and its two laws on the buffer are the two clauses. -/
theorem updateStoresInOrder : Obligations.UpdateStoresInOrder := by
  unfold Obligations.UpdateStoresInOrder
  intro s t e tail n h hp hr hlen
  obtain ⟨e', ha⟩ := absorb_succeeds t.command.data hr
  exact ⟨_, e', exec_update_of_absorb hp hr.life hlen ha, respond_engine hp e' _,
    fun _ hk hlast => absorb_read_of_stored hr.used ha hk hlast,
    fun _ hfree => absorb_read_of_not_stored hr.used ha hfree⟩

/-! ### Writes and reads of several bytes (R42, R43) -/

/-- Everything a write inside the buffer does (R43): it stores the value's bytes, the most significant first, changes no other
byte and keeps the canonical form. -/
theorem memWrite_spec (m : Memory) {addr n : Nat} (v : BitVec (8 * n)) (h : addr + n ≤ 64) :
    ∃ m', memWrite m addr n v = .ok m' ∧
      (∀ k, k < n → m'.read (addr + k) = some (v.extractLsb' (8 * (n - 1 - k)) 8)) ∧
      (∀ a, a < addr ∨ addr + n ≤ a → m'.read a = m.read a) ∧
      (m.wf = true → m'.wf = true) := by
  obtain ⟨m', hw, hread, hwf⟩ := writeBytes_spec (splitBE n v) (m := m) (a := addr) (by simpa using h)
  rw [splitBE_length] at hread
  refine ⟨m', hw, fun k hk => ?_, fun a ha => ?_, hwf⟩
  · rw [hread, if_pos (by omega), Nat.add_sub_cancel_left, splitBE_get v hk]
  · rw [hread, if_neg (by omega)]

/-- A read of bytes that are those of a value, the most significant first, gives the value (R42). -/
theorem memRead_of_reads {m : Memory} {addr n : Nat} (v : BitVec (8 * n)) (h : addr + n ≤ 64)
    (hr : ∀ k, k < n → m.read (addr + k) = some (v.extractLsb' (8 * (n - 1 - k)) 8)) : memRead m addr n = .ok v := by
  have hbytes := readBytes_of_reads (splitBE n v) (m := m) (a := addr) (by simpa using h) fun k hk => by
    rw [splitBE_length] at hk
    rw [hr k hk, splitBE_get v hk]
  have hvalue : BitVec.ofNat (8 * n) (joinBE (splitBE n v)) = v := by
    have hlt : v.toNat < 256 ^ n := by simpa [Nat.pow_mul] using v.isLt
    rw [joinBE_splitBE, Nat.mod_eq_of_lt hlt, BitVec.ofNat_toNat, BitVec.setWidth_eq]
  rw [splitBE_length] at hbytes
  rw [memRead, hbytes, ok_bind, hvalue]

/-- Settles O46: the write stores the value's bytes, and a read of these gives the value. -/
theorem memWriteReadsBack : Obligations.MemWriteReadsBack := by
  unfold Obligations.MemWriteReadsBack
  intro m addr n v h
  obtain ⟨m', hw, hread, hframe, hwf⟩ := memWrite_spec m v h
  exact ⟨m', hw, memRead_of_reads v h hread, hread, hframe, hwf⟩

/-! ### Words and the length field (R41, R45) -/

/-- R41's two spellings of a word: its bytes side by side, and each shifted to its place. -/
theorem append_bytes_eq_shifts (b₀ b₁ b₂ b₃ : Byte) :
    b₀ ++ b₁ ++ b₂ ++ b₃ =
      b₀.setWidth 32 <<< 24 ||| b₁.setWidth 32 <<< 16 ||| b₂.setWidth 32 <<< 8 ||| b₃.setWidth 32 := by
  have h₀ := b₀.isLt
  have h₁ := b₁.isLt
  have h₂ := b₂.isLt
  have h₃ := b₃.isLt
  apply BitVec.eq_of_toNat_eq
  simp only [BitVec.toNat_append, Nat.shiftLeft_or_distrib, ← Nat.shiftLeft_add]
  simp (disch := omega) only [BitVec.toNat_or, BitVec.toNat_shiftLeft, BitVec.toNat_setWidth, Nat.mod_eq_of_lt]

/-- Settles O45: a word is its four bytes side by side, which R41's formula spells in shifts. -/
theorem bufferWordsAreBigEndian : Obligations.BufferWordsAreBigEndian := by
  unfold Obligations.BufferWordsAreBigEndian
  refine ⟨fun m j b₀ b₁ b₂ b₃ hj h₀ h₁ h₂ h₃ => ?_, by decide⟩
  have hword := bufWord_of_reads (by omega) h₀ h₁ h₂ h₃
  exact ⟨hword, append_bytes_eq_shifts b₀ b₁ b₂ b₃ ▸ hword⟩

/-- Four bytes of a value side by side are 32 bits of it. -/
theorem append_extractLsb'_bytes {w : Nat} (v : BitVec w) (i : Nat) :
    v.extractLsb' (i + 24) 8 ++ v.extractLsb' (i + 16) 8 ++ v.extractLsb' (i + 8) 8 ++ v.extractLsb' i 8 =
      v.extractLsb' i 32 := by
  calc _ = v.extractLsb' (i + 16) 16 ++ v.extractLsb' (i + 8) 8 ++ v.extractLsb' i 8 := by
        rw [BitVec.extractLsb'_append_extractLsb'_eq_extractLsb' (by omega)]
    _ = v.extractLsb' (i + 8) 24 ++ v.extractLsb' i 8 := by
        rw [BitVec.extractLsb'_append_extractLsb'_eq_extractLsb' (by omega)]
    _ = v.extractLsb' i 32 := by
        rw [BitVec.extractLsb'_append_extractLsb'_eq_extractLsb' (by omega)]

/-- Settles O48: the write stores the length's bytes, and words 14 and 15 are four of them each. -/
theorem lengthFieldIsBigEndian : Obligations.LengthFieldIsBigEndian := by
  unfold Obligations.LengthFieldIsBigEndian
  intro m bitlen
  obtain ⟨m', hw, hread, -, -⟩ := memWrite_spec m (addr := 56) (n := 8) bitlen (by omega)
  refine ⟨m', hw, hread 0 (by omega), hread 7 (by omega), fun k hk => ?_, ?_, ?_⟩
  · rw [hread k hk, show 8 * (8 - 1 - k) = 56 - 8 * k by omega]
  · rw [← append_extractLsb'_bytes bitlen 32]
    exact bufWord_of_reads (by omega) (hread 0 (by omega)) (hread 1 (by omega)) (hread 2 (by omega)) (hread 3 (by omega))
  · rw [← append_extractLsb'_bytes bitlen 0]
    exact bufWord_of_reads (by omega) (hread 4 (by omega)) (hread 5 (by omega)) (hread 6 (by omega)) (hread 7 (by omega))

/-! ### The digest (R46) -/

/-- Words serialized one after the other: byte `k` of word `i` stands at `n * i + k`. -/
theorem flatMap_splitBE_get {ws : List Word} {n i k : Nat} {w : Word} (hk : k < n) (hw : ws[i]? = some w) :
    (ws.flatMap (splitBE n))[n * i + k]? = some (w.extractLsb' (8 * (n - 1 - k)) 8) := by
  induction ws generalizing i with
  | nil => simp at hw
  | cons x ws ih =>
    rw [List.flatMap_cons]
    cases i with
    | zero =>
      obtain rfl : x = w := by simpa using hw
      rw [Nat.mul_zero, Nat.zero_add, List.getElem?_append_left (by simpa using hk), splitBE_get x hk]
    | succ i =>
      rw [List.getElem?_append_right (by rw [splitBE_length, Nat.mul_succ]; omega), splitBE_length,
        show n * (i + 1) + k - n = n * i + k by rw [Nat.mul_succ]; omega]
      exact ih (by simpa using hw)

/-- Settles O49: the eight words are serialized one after the other, 4 bytes each. -/
theorem digestIsBigEndian : Obligations.DigestIsBigEndian := by
  unfold Obligations.DigestIsBigEndian
  refine fun h => ⟨by simp [digestBytes, Digest.words], rfl, fun i k w hk hw => ?_⟩
  rw [digestBytes, flatMap_splitBE_get hk hw, show 8 * (4 - 1 - k) = 24 - 8 * k by omega]

/-! ### The canonical form (R40) -/

theorem risingFrom_cons {lo x : Nat} {v : Byte} {m : Memory} :
    Memory.risingFrom lo ((x, v) :: m) = true ↔ lo ≤ x ∧ x < 64 ∧ Memory.risingFrom (x + 1) m = true := by
  simp [Memory.risingFrom, and_assoc]

/-- A buffer in canonical form from `lo` on lists no offset below `lo`. -/
theorem le_of_read_eq_some {m : Memory} {lo a : Nat} {b : Byte} (hm : Memory.risingFrom lo m = true)
    (hread : m.read a = some b) : lo ≤ a := by
  induction m generalizing lo with
  | nil => simp [Memory.read] at hread
  | cons p m ih =>
    obtain ⟨x, v⟩ := p
    obtain ⟨hlo, -, hm⟩ := risingFrom_cons.mp hm
    rw [Memory.read] at hread
    split_ifs at hread with hx
    · omega
    · have := ih hm hread
      omega

theorem read_eq_none_of_lt {m : Memory} {lo a : Nat} (hm : Memory.risingFrom lo m = true) (ha : a < lo) : m.read a = none :=
  Option.eq_none_iff_forall_ne_some.mpr fun _ hb => absurd (le_of_read_eq_some hm hb) (by omega)

theorem read_cons_same (x : Nat) (v : Byte) (m : Memory) : Memory.read ((x, v) :: m) x = some v := if_pos rfl

theorem read_cons_other {x a : Nat} (v : Byte) (m : Memory) (h : x ≠ a) : Memory.read ((x, v) :: m) a = m.read a := if_neg h

/-- Buffers in canonical form that read alike are equal: they list the same first offset, with the same byte, and go on alike. -/
theorem eq_of_reads {m m' : Memory} {lo : Nat} (hm : Memory.risingFrom lo m = true) (hm' : Memory.risingFrom lo m' = true)
    (h : ∀ a, m.read a = m'.read a) : m = m' := by
  induction m generalizing m' lo with
  | nil =>
    cases m' with
    | nil => rfl
    | cons p' m' => exact absurd ((h p'.1).trans (read_cons_same p'.1 p'.2 m')) (Option.some_ne_none _).symm
  | cons p m ih =>
    obtain ⟨x, v⟩ := p
    cases m' with
    | nil => exact absurd ((read_cons_same x v m).symm.trans (h x)) (Option.some_ne_none _)
    | cons p' m' =>
      obtain ⟨x', v'⟩ := p'
      obtain ⟨-, hx, hrest⟩ := risingFrom_cons.mp hm
      obtain ⟨-, hx', hrest'⟩ := risingFrom_cons.mp hm'
      have hle : x ≤ x' :=
        le_of_read_eq_some (risingFrom_cons.mpr ⟨le_rfl, hx, hrest⟩) ((h x').trans (read_cons_same x' v' m'))
      have hge : x' ≤ x :=
        le_of_read_eq_some (risingFrom_cons.mpr ⟨le_rfl, hx', hrest'⟩) ((h x).symm.trans (read_cons_same x v m))
      obtain rfl := le_antisymm hle hge
      obtain rfl : v = v' := by simpa only [read_cons_same, Option.some.injEq] using h x
      rw [ih hrest hrest' fun a => ?_]
      by_cases ha : x = a
      · rw [read_eq_none_of_lt hrest (by omega), read_eq_none_of_lt hrest' (by omega)]
      · simpa only [read_cons_other v _ ha] using h a

/-- Settles O50: it is the canonical form from offset 0 on. -/
theorem canonicalBuffersAreEqual : Obligations.CanonicalBuffersAreEqual := by
  unfold Obligations.CanonicalBuffersAreEqual
  exact fun _ _ hm hm' h => eq_of_reads hm hm' h

/-! ### INIT repeated (R49, R81) -/

theorem exec_init_of_presents {s : State} {t : Transaction} {e : Engine} (hp : Presents s t e) :
    exec .init s = .next (respond s t.engine (initEngine e) (plainResponse .ok)) :=
  withTransaction_of_presents hp _

theorem initEngine_idem (e : Engine) : initEngine (initEngine e) = initEngine e := rfl

/-- Settles O12: the second INIT finds the engine as the first left it, and sets it to the same again. -/
theorem initIsIdempotent : Obligations.InitIsIdempotent := by
  unfold Obligations.InitIsIdempotent
  intro s t t' e rest hin he heng
  have hp : Presents s t e := ⟨by rw [hin]; rfl, he⟩
  have hp' : Presents (respond s t.engine (initEngine e) (plainResponse .ok)) t' (initEngine e) :=
    ⟨by simp [hin], heng ▸ respond_engine hp _ _⟩
  refine ⟨_, _, exec_init_of_presents hp, exec_init_of_presents hp', ?_⟩
  simp [initEngine_idem, heng]

end Sys2Proof.Proofs.BlockBuffer
end

section
/-! PROOFS. The encoding (30_encoding.md): the response of a command (R67), and the chunks of UPDATE.CHUNKS (R74) with the run of
INIT, UPDATEs and FINAL they stand in (R36, R136). -/

namespace Sys2Proof.Proofs.Encoding

open Sys2Proof Sys2Proof.Machine Sys2Proof.Proofs.EngineState

/-! ### The platform after an event -/

@[simp] theorem afterEvent_inputs (s : State) (n : Nat) (e : Engine) (r : Option Response) :
    (afterEvent s n e r).inputs = s.inputs.tail := rfl

@[simp] theorem afterEvent_responses_some (s : State) (n : Nat) (e : Engine) (r : Response) :
    (afterEvent s n e (some r)).responses = s.responses ++ [{ engine := n, response := r }] := rfl

theorem afterEvent_engine {s : State} {n : Nat} {e : Engine} (he : s.engines[n]? = some e) (e' : Engine) (r : Option Response) :
    (afterEvent s n e' r).engines[n]? = some e' := by
  simp [afterEvent, (List.getElem?_eq_some_iff.mp he).1]

/-! ### The response of a command (R67) -/

theorem statusResp_eq_zero {st : Status} : st.resp = 0#32 ↔ st = .ok := by
  cases st <;> decide

theorem digestBytes_length (x : Digest) : (digestBytes x).length = 32 :=
  (BlockBuffer.digestIsBigEndian x).1

theorem plainResponse_shaped (st : Status) : (plainResponse st).shaped :=
  ⟨by cases st <;> decide, fun _ h => by cases h⟩

theorem digestResponse_shaped (x : Digest) : (digestResponse (digestBytes x)).shaped :=
  ⟨(plainResponse_shaped .ok).1, fun _ h => by cases h; exact ⟨rfl, digestBytes_length x⟩⟩

/-- UPDATE never answers a digest. -/
theorem updateVerdict_response {p : Bool} {c : Command} {e e' : Engine} {r : Option Response}
    (h : updateVerdict p c e = .next (e', r)) : ∃ st, r = some (plainResponse st) := by
  unfold updateVerdict at h
  split_ifs at h
  · cases h; exact ⟨_, rfl⟩
  · cases h; exact ⟨_, rfl⟩
  · cases h; exact ⟨_, rfl⟩
  · cases ha : absorb e (messageBytes p c) with
    | error f => rw [ha] at h; cases h
    | ok e₁ => rw [ha] at h; cases h; exact ⟨_, rfl⟩

/-- FINAL answers INVALID_STATE or a digest. -/
theorem finalVerdict_response {e e' : Engine} {r : Option Response} (h : finalVerdict e = .next (e', r)) :
    r = some (plainResponse .invalidState) ∨ ∃ x, r = some (digestResponse (digestBytes x)) := by
  unfold finalVerdict at h
  split_ifs at h
  · cases h; exact .inl rfl
  · cases hf : finalize e with
    | error f => rw [hf] at h; cases h
    | ok ed => rw [hf] at h; cases h; exact .inr ⟨_, rfl⟩

/-- Every command that goes on is answered: with a status alone, which is not the OK of a FINAL, or, if it is FINAL, with a
digest. -/
theorem transactionVerdict_response {t : Transaction} {e e' : Engine} {r : Option Response}
    (h : transactionVerdict t e = .next (e', r)) :
    (∃ st, r = some (plainResponse st) ∧ ¬ (decode t.command.cmd = .ok .final ∧ st = .ok)) ∨
    (decode t.command.cmd = .ok .final ∧ ∃ x, r = some (digestResponse (digestBytes x))) := by
  unfold transactionVerdict at h
  cases ht : t.turn with
  | beforeResponse => simp [ht] at h
  | secondHost => simp [ht] at h
  | inTurn =>
    cases hd : decode t.command.cmd with
    | error f => simp only [ht, hd] at h; cases h; exact .inl ⟨_, rfl, by simp⟩
    | ok i =>
      simp only [ht, hd] at h
      cases i with
      | init => cases h; exact .inl ⟨_, rfl, by simp⟩
      | update p =>
        obtain ⟨st, rfl⟩ := updateVerdict_response h
        exact .inl ⟨st, rfl, by simp⟩
      | final =>
        rcases finalVerdict_response h with rfl | hx
        · exact .inl ⟨_, rfl, by simp⟩
        · exact .inr ⟨rfl, hx⟩

/-- Settles O27: the verdict on a transaction has a response, a status alone or FINAL's digest. -/
theorem oneResponsePerCommand : Obligations.OneResponsePerCommand := by
  unfold Obligations.OneResponsePerCommand
  intro s s' t rest hin h
  obtain ⟨e, e', r, -, hv, rfl⟩ := eventVerdict_of_step_next hin h
  rcases transactionVerdict_response hv with ⟨st, rfl, hst⟩ | ⟨hd, x, rfl⟩
  · exact ⟨plainResponse st, rfl, by simp [hin], by simpa [statusResp_eq_zero] using hst, by simp⟩
  · exact ⟨digestResponse (digestBytes x), rfl, by simp [hin], by simp [hd, statusResp_eq_zero],
      by simp [digestBytes_length]⟩

theorem eventVerdict_shaped {e e' : Engine} {ev : HostEvent} {r : Response} (h : eventVerdict e ev = .next (e', some r)) :
    r.shaped := by
  cases ev with
  | reset n => cases h
  | issue t =>
    rcases transactionVerdict_response h with ⟨st, hr, -⟩ | ⟨-, x, hr⟩
    · cases hr; exact plainResponse_shaped st
    · cases hr; exact digestResponse_shaped x

/-- Settles O28: a step keeps the responses before it and adds at most the one of the verdict. -/
theorem responsesStayShaped : Obligations.ResponsesStayShaped := by
  unfold Obligations.ResponsesStayShaped
  intro s s' hs h a ha
  cases hin : s.inputs with
  | nil => rw [step_of_idle hin] at h; cases h; exact hs a ha
  | cons ev rest =>
    obtain ⟨e, e', r, -, hv, rfl⟩ := eventVerdict_of_step_next hin h
    rcases List.mem_append.mp ha with hold | hnew
    · exact hs a hold
    · cases r with
      | none => simp at hnew
      | some r =>
        obtain rfl : a = { engine := ev.engine, response := r } := by simpa using hnew
        exact eventVerdict_shaped hv

/-! ### The chunks (R74) -/

/-- With fuel for every byte the chunks are the whole message. -/
theorem chunksOf_flatten {k fuel : Nat} {d : List Byte} (hk : 1 ≤ k) (hd : d.length ≤ fuel) :
    (chunksOf k fuel d).flatten = d := by
  induction fuel generalizing d with
  | zero => exact (List.eq_nil_of_length_eq_zero (by omega)).symm
  | succ fuel ih =>
    cases d with
    | nil => rfl
    | cons b d =>
      have hrest : ((b :: d).drop k).length ≤ fuel := by simp only [List.length_drop]; omega
      rw [chunksOf, List.flatten_cons, ih hrest, List.take_append_drop]

theorem chunksOf_length {k fuel : Nat} {d c : List Byte} (hk : 1 ≤ k) (hc : c ∈ chunksOf k fuel d) :
    1 ≤ c.length ∧ c.length ≤ k := by
  induction fuel generalizing d with
  | zero => cases hc
  | succ fuel ih =>
    cases d with
    | nil => cases hc
    | cons b d =>
      rcases List.mem_cons.mp hc with rfl | hc
      · simp only [List.length_take, List.length_cons]; omega
      · exact ih hc

/-- A chunk is no longer than the message. -/
theorem chunksOf_length_le {k : Nat} {d c : List Byte} (hk : 1 ≤ k) (hc : c ∈ chunksOf k d.length d) :
    c.length ≤ d.length := by
  have hpart := (List.sublist_flatten_of_mem hc).length_le
  rwa [chunksOf_flatten hk le_rfl] at hpart

/-! ### What the lines of a hash make of an engine -/

theorem decode_init_line : decode AsmLine.init.command.cmd = .ok .init := by decide

theorem decode_update_line (d : List Byte) : decode (AsmLine.updateBytes d).command.cmd = .ok (.update true) := by
  change decode 0x28000000#32 = _
  decide

theorem decode_final_line : decode AsmLine.final.command.cmd = .ok .final := by decide

/-- LEN of an UPDATE line is the number of its bytes, as long as that is below 2^63 (R65, R73). -/
theorem signedLen_updateCommand {d : List Byte} (h : d.length < 2 ^ 63) : signedLen (updateCommand d) = d.length := by
  have hlt : d.length < 2 ^ 64 := by omega
  rw [signedLen, updateCommand, BitVec.toInt_eq_toNat_of_lt (by simp; omega), BitVec.toNat_ofNat, Nat.mod_eq_of_lt hlt]

/-- An UPDATE line appends its bytes to the message held, and is answered OK (R36, R82). -/
theorem updateVerdict_of_holds {e : Engine} {msg d : List Byte} (hh : e.Holds msg) (hd : d.length < 2 ^ 63) :
    ∃ e', updateVerdict true (updateCommand d) e = .next (e', some (plainResponse .ok)) ∧ e'.Holds (msg ++ d) := by
  have hlen := signedLen_updateCommand hd
  obtain ⟨e', ha, hh', -⟩ := absorb_holds d hh
  refine ⟨e', ?_, hh'⟩
  have hdata : (updateCommand d).data = d := rfl
  simp [updateVerdict, hh.life, negativeLen, nullNonzero, dataMismatch, messageBytes, hlen, hdata, ha]

/-- Compressing the open tail with its padding, after the whole blocks, is hashing the message padded as a whole (R132). -/
theorem hashBlocks_padded (msg : List Byte) :
    hashBlocks (msg.length / 64 + finalBlockCount (msg.length % 64)) hInit (padded msg) =
      hashBlocks (finalBlockCount (msg.length % 64)) (hashBlocks (msg.length / 64) hInit msg)
        (openTail msg ++ padding (msg.length % 64) (BitVec.ofNat 64 (8 * msg.length))) := by
  obtain ⟨whole, hwhole⟩ : ∃ whole, whole = msg.take (64 * (msg.length / 64)) := ⟨_, rfl⟩
  have hlen : whole.length = 64 * (msg.length / 64) := by simp [hwhole]; omega
  have hmsg : whole ++ openTail msg = msg := by simp [hwhole, openTail]
  have hblocks : hashBlocks (msg.length / 64) hInit msg = hashBlocks (msg.length / 64) hInit whole := by
    rw [← hashBlocks_prefix (b := openTail msg) _ hlen.ge, hmsg]
  rw [hblocks, ← hashBlocks_append _ hlen, ← List.append_assoc, hmsg, padded]

/-- R130 step 1: the bits counted and those of the open tail are the bits of the message (R139). -/
theorem bitlen_add_openTail (len : Nat) :
    BitVec.ofNat 64 (512 * (len / 64)) + BitVec.ofNat 64 (8 * (len % 64)) = BitVec.ofNat 64 (8 * len) := by
  rw [← BitVec.ofNat_add, show 512 * (len / 64) + 8 * (len % 64) = 8 * len by omega]

/-- FINAL of an engine that holds a message answers the digest of the message. -/
theorem finalVerdict_of_holds {e : Engine} {msg : List Byte} (hh : e.Holds msg) :
    ∃ e', finalVerdict e = .next (e', some (digestResponse (engineFn msg))) := by
  obtain ⟨e', hf, -⟩ := finalize_of_ready (holds_iff_ready.mp hh)
  rw [openTail_length, bitlen_add_openTail, ← hashBlocks_padded] at hf
  exact ⟨e', by simp [finalVerdict, hh.life, hf, engineFn]⟩

/-! ### Running lines -/

/-- A run whose first event is a line of engine `n`: the verdict on the line's command, and the run of what remains. -/
theorem runSteps_line {s : State} {n k : Nat} {e e' : Engine} {l : AsmLine} {ls : List AsmLine} {rest : List HostEvent} {i : Instr}
    {r : Option Response} (he : s.engines[n]? = some e) (hin : s.inputs = issueLines n (l :: ls) ++ rest)
    (hd : decode l.command.cmd = .ok i) (hv : commandVerdict l.command e i = .next (e', r)) :
    runSteps (k + 1) s = runSteps k (afterEvent s n e' r) := by
  have hverdict : eventVerdict e (.issue { engine := n, turn := .inTurn, command := l.command }) = .next (e', r) := by
    simpa only [eventVerdict, transactionVerdict, hd] using hv
  have hstep : step s = .next (afterEvent s n e' r) := by
    rw [step_eq_deliver hin he, hverdict]
    rfl
  simp only [runSteps, hstep]

/-- UPDATEs and FINAL on an engine that holds a message: each UPDATE is answered OK, and FINAL the digest of the message with the
pieces appended. -/
theorem runSteps_updates_final (ds : List (List Byte)) {s : State} {n : Nat} {e : Engine} {msg : List Byte} {rest : List HostEvent}
    (he : s.engines[n]? = some e) (hh : e.Holds msg) (hlen : ∀ d ∈ ds, d.length < 2 ^ 63)
    (hin : s.inputs = issueLines n (ds.map .updateBytes ++ [.final]) ++ rest) :
    ∃ s', runSteps (ds.length + 1) s = some s' ∧ s'.inputs = rest ∧
      s'.responses = s.responses ++ List.replicate ds.length { engine := n, response := plainResponse .ok } ++
        [{ engine := n, response := digestResponse (engineFn (msg ++ ds.flatten)) }] := by
  induction ds generalizing s e msg with
  | nil =>
    obtain ⟨e', hv⟩ := finalVerdict_of_holds hh
    refine ⟨_, runSteps_line he hin decode_final_line hv, ?_, ?_⟩
    · simp [hin, issueLines]
    · simp
  | cons d ds ih =>
    obtain ⟨hd, hds⟩ := List.forall_mem_cons.mp hlen
    obtain ⟨e', hv, hh'⟩ := updateVerdict_of_holds hh hd
    obtain ⟨s', hrun, hinputs, hresponses⟩ := ih (s := afterEvent s n e' (some (plainResponse .ok))) (afterEvent_engine he _ _) hh'
      hds (by simp [hin, issueLines])
    refine ⟨s', ?_, hinputs, ?_⟩
    · rw [← hrun]
      exact runSteps_line he hin (decode_update_line d) hv
    · simpa [List.replicate_succ] using hresponses

/-- INIT, any UPDATEs and FINAL, from any state: INIT and each UPDATE are answered OK, and FINAL the digest of the pieces joined
(R136). -/
theorem runSteps_stream {s : State} {n : Nat} {e : Engine} {ds : List (List Byte)} {rest : List HostEvent}
    (he : s.engines[n]? = some e) (hlen : ∀ d ∈ ds, d.length < 2 ^ 63)
    (hin : s.inputs = issueLines n (.init :: ds.map .updateBytes ++ [.final]) ++ rest) :
    ∃ s', runSteps (ds.length + 2) s = some s' ∧ s'.inputs = rest ∧
      s'.responses = s.responses ++ List.replicate (ds.length + 1) { engine := n, response := plainResponse .ok } ++
        [{ engine := n, response := digestResponse (engineFn ds.flatten) }] := by
  obtain ⟨s', hrun, hinputs, hresponses⟩ := runSteps_updates_final ds
    (s := afterEvent s n (initEngine e) (some (plainResponse .ok))) (afterEvent_engine he _ _) (initEngine_holds e) hlen
    (rest := rest) (by simp [hin, issueLines])
  refine ⟨s', ?_, hinputs, ?_⟩
  · rw [← hrun]
    exact runSteps_line he hin decode_init_line rfl
  · simpa [List.replicate_succ] using hresponses

/-- Settles O55: the chunks joined are the message, so the stream of them answers its digest. -/
theorem chunkedHashAgrees : Obligations.ChunkedHashAgrees := by
  unfold Obligations.ChunkedHashAgrees
  intro k d hk
  have hjoin : (chunksOf k d.length d).flatten = d := chunksOf_flatten hk le_rfl
  refine ⟨hjoin, fun c hc => chunksOf_length hk hc, fun s n e rest he hd hin => ?_⟩
  have hlen : ∀ c ∈ chunksOf k d.length d, c.length < 2 ^ 63 := fun c hc => (chunksOf_length_le hk hc).trans_lt hd
  obtain ⟨s', hrun, -, hresponses⟩ := runSteps_stream he hlen hin
  rw [hjoin] at hresponses
  refine ⟨s', by simpa [pseudoUpdateChunks] using hrun, ?_⟩
  rw [hresponses, List.getLast?_concat]
  rfl

end Sys2Proof.Proofs.Encoding
end

section
/-! PROOFS. Absorption (40_absorption.md): INIT, ABSORB_BYTE, the checks of UPDATE, what UPDATE makes of a ready engine and of the
message an engine holds, and the runs of INIT, UPDATEs and FINAL (R134, R136). -/

namespace Sys2Proof.Proofs.Absorption

open Sys2Proof Sys2Proof.Machine Sys2Proof.Proofs.EngineState Sys2Proof.Proofs.BlockBuffer Sys2Proof.Proofs.Encoding

/-! ### The message held (R36) -/

/-- Settles O51: INIT's engine holds the empty message, and the loop over DATA appends it to the message held. -/
theorem commandsTrackMessage : Obligations.CommandsTrackMessage := by
  unfold Obligations.CommandsTrackMessage
  refine ⟨fun s t e hp => ⟨_, _, exec_init_of_presents hp, respond_engine hp _ _, initEngine_holds e⟩,
    fun s t e msg hp hh hlen => ?_⟩
  obtain ⟨e', ha, hh', -⟩ := absorb_holds t.command.data hh
  exact ⟨_, e', exec_update_of_absorb hp hh.life hlen ha, respond_engine hp _ _, hh'⟩

/-! ### ABSORB_BYTE (R80) -/

/-- Settles O13: the byte is stored at `used`, and it either joins the buffered tail or completes the block. -/
theorem absorbByteAppends : Obligations.AbsorbByteAppends := by
  unfold Obligations.AbsorbByteAppends
  intro e tail n h b hr
  have stores {e' : Engine} (hb : absorbByte e b = .ok e') :
      e'.buf.read tail.length = some b ∧ ∀ a, a ≠ tail.length → e'.buf.read a = e.buf.read a := by
    obtain ⟨-, hbuf, -⟩ := absorbByte_stores hr.used hb
    exact hbuf ▸ ⟨Memory.read_write_same _ _ _, fun _ ha => Memory.read_write_other _ _ ha⟩
  by_cases hfull : tail.length = 63
  · obtain ⟨e', hb, hr'⟩ := absorbByte_of_full b hr hfull
    obtain ⟨hstored, hframe⟩ := stores hb
    refine ⟨e', hb, hr'.life, hstored, hframe, fun hlt => by omega, fun _ => ⟨hr'.used, hr'.bitlen, hr'.digest, ?_⟩⟩
    rintro rfl
    exact hr'.bitlen
  · have hlt : tail.length < 63 := by have := hr.bound; omega
    obtain ⟨e', hb, hr'⟩ := absorbByte_of_partial b hr hlt
    obtain ⟨hstored, hframe⟩ := stores hb
    exact ⟨e', hb, hr'.life, hstored, hframe, fun _ => ⟨by simpa using hr'.used, hr'.bitlen, hr'.digest⟩,
      fun h63 => absurd h63 hfull⟩

/-! ### The checks of UPDATE (R82, R164) -/

/-- An instruction that raises a status fails with the status's code. -/
theorem failsWith_of_raise {i : Instr} {s : State} {n : Nat} {st : Status} (h : exec i s = raise s n st) :
    FailsWith i s n st.resp :=
  ⟨_, h, rfl, answer_answered s n _⟩

theorem not_negativeLen {c : Command} (h : 0 ≤ c.len.toInt) : ¬ negativeLen c = true :=
  fun hneg => absurd (of_decide_eq_true hneg) (not_lt.mpr h)

section
variable {s : State} {t : Transaction} {e : Engine} {p : Bool}

/-- UPDATE of a presented command: its verdict, put to work. -/
theorem exec_update_of_presents (hp : Presents s t e) :
    exec (.update p) s = deliver s t.engine (updateVerdict p t.command e) :=
  exec_eq_deliver hp (.update p)

/-- R162: the first check. -/
theorem exec_update_of_not_active (hp : Presents s t e) (hl : e.life ≠ .active) :
    exec (.update p) s = raise s t.engine .invalidState := by
  rw [exec_update_of_presents hp, updateVerdict, if_pos hl, raise_eq_deliver hp.2]

/-- R161 (a): the second check. -/
theorem exec_update_of_negative (hp : Presents s t e) (hl : e.life = .active) (hneg : t.command.len.toInt < 0) :
    exec (.update p) s = raise s t.engine .invalidArgument := by
  have hcheck : negativeLen t.command = true := decide_eq_true hneg
  rw [exec_update_of_presents hp, updateVerdict, if_neg (not_not.mpr hl), if_pos hcheck, raise_eq_deliver hp.2]

/-- R161 (b): the third check. -/
theorem exec_update_of_null (hp : Presents s t e) (hl : e.life = .active) (hpos : 0 < t.command.len.toInt) :
    exec (.update false) s = raise s t.engine .invalidArgument := by
  have hcheck : nullNonzero false t.command = true := decide_eq_true hpos.ne'
  rw [exec_update_of_presents hp, updateVerdict, if_neg (not_not.mpr hl), if_neg (not_negativeLen hpos.le), if_pos hcheck,
    raise_eq_deliver hp.2]

/-- R185: the host's duty on DATA, after the checks. -/
theorem exec_update_of_mismatch (hp : Presents s t e) (hl : e.life = .active) (hnonneg : 0 ≤ t.command.len.toInt)
    (hne : (t.command.data.length : Int) ≠ t.command.len.toInt) : exec (.update true) s = .refused .dataLength := by
  have hnull : ¬ nullNonzero true t.command = true := Bool.false_ne_true
  have hcheck : dataMismatch true t.command = true := decide_eq_true hne
  rw [exec_update_of_presents hp, updateVerdict, if_neg (not_not.mpr hl), if_neg (not_negativeLen hnonneg), if_neg hnull,
    if_pos hcheck, deliver]

/-- UPDATE of no bytes, in either form, leaves the engine as it is. -/
theorem exec_update_of_empty (hp : Presents s t e) (hl : e.life = .active) (hlen : t.command.len = 0#64)
    (hdata : p = true → t.command.data = []) :
    exec (.update p) s = .next (respond s t.engine e (plainResponse .ok)) := by
  cases p with
  | false =>
    have hverdict : updateVerdict false t.command e = .next (e, some (plainResponse .ok)) := by
      simp [updateVerdict, hl, negativeLen, nullNonzero, dataMismatch, signedLen, hlen, messageBytes, absorb]
    rw [exec_update_of_presents hp, hverdict]
    rfl
  | true =>
    have hnone : t.command.data = [] := hdata rfl
    exact exec_update_of_absorb hp hl (by simp [hnone, hlen]) (by rw [hnone, absorb])

end

/-- Settles O14: one lemma for each check, in their order. -/
theorem updateChecksInOrder : Obligations.UpdateChecksInOrder := by
  unfold Obligations.UpdateChecksInOrder
  intro s t e p hp
  refine ⟨fun hl => failsWith_of_raise (exec_update_of_not_active hp hl),
    fun hl hneg => failsWith_of_raise (exec_update_of_negative hp hl hneg), ?_, ?_⟩
  · rintro hl hpos rfl
    exact failsWith_of_raise (exec_update_of_null hp hl hpos)
  · rintro hl hnonneg rfl hne
    exact exec_update_of_mismatch hp hl hnonneg hne

/-- Settles O15: the answer puts the engine back in its place as it was. -/
theorem emptyUpdateChangesNothing : Obligations.EmptyUpdateChangesNothing := by
  unfold Obligations.EmptyUpdateChangesNothing
  intro s t e hp hl hlen
  have hsame : (respond s t.engine e (plainResponse .ok)).engines = s.engines := set_engine_self hp.2
  exact ⟨⟨_, exec_update_of_empty hp hl hlen (by simp), hsame, respond_answered _ _ _ _⟩,
    fun hdata => ⟨_, exec_update_of_empty hp hl hlen fun _ => hdata, hsame, respond_answered _ _ _ _⟩⟩

/-! ### UPDATE with data on a ready engine (R82, R85) -/

/-- Fewer than 64 bytes are their own open tail. -/
theorem openTail_of_lt {d : List Byte} (h : d.length < 64) : openTail d = d := by
  simp [openTail, Nat.div_eq_of_lt h]

/-- A whole block before the bytes is no part of their open tail. -/
theorem openTail_block_append {blk : List Byte} (d : List Byte) (hb : blk.length = 64) :
    openTail (blk ++ d) = openTail d := by
  have hcount : 64 * ((blk ++ d).length / 64) = blk.length + 64 * (d.length / 64) := by simp; omega
  rw [openTail, hcount, List.drop_length_add_append, openTail]

/-- The loop of UPDATE on a ready engine compresses, in order, the whole blocks of the buffered tail followed by the bytes, counts
them, and leaves the rest buffered. -/
theorem absorb_ready (d : List Byte) {e : Engine} {tail : List Byte} {n : BitVec 64} {h : Digest} (hr : e.Ready tail n h) :
    ∃ e', absorb e d = .ok e' ∧ e'.Ready (openTail (tail ++ d)) (n + BitVec.ofNat 64 (512 * ((tail ++ d).length / 64)))
      (hashBlocks ((tail ++ d).length / 64) h (tail ++ d)) := by
  induction d generalizing e tail n h with
  | nil =>
    have hnone : tail.length / 64 = 0 := Nat.div_eq_of_lt hr.bound
    exact ⟨e, rfl, by simpa [openTail_of_lt hr.bound, hnone, hashBlocks] using hr⟩
  | cons b d ih =>
    rw [List.append_cons]
    by_cases hfull : tail.length = 63
    · obtain ⟨e₁, hb, hr₁⟩ := absorbByte_of_full b hr hfull
      obtain ⟨e', hd, hr'⟩ := ih hr₁
      have hblock : (tail ++ [b]).length = 64 := by simp [hfull]
      have hcount : ((tail ++ [b]) ++ d).length / 64 = 1 + d.length / 64 := by
        rw [List.length_append, hblock, Nat.add_div_left _ (by omega), Nat.add_comm]
      refine ⟨e', by rw [absorb, hb, ok_bind, hd], ?_⟩
      rw [hcount, openTail_block_append d hblock, hashBlocks_append 1 hblock, hashBlocks_one hblock, Nat.mul_add,
        BitVec.ofNat_add, ← BitVec.add_assoc]
      exact hr'
    · obtain ⟨e₁, hb, hr₁⟩ := absorbByte_of_partial b hr (by have := hr.bound; omega)
      obtain ⟨e', hd, hr'⟩ := ih hr₁
      exact ⟨e', by rw [absorb, hb, ok_bind, hd], hr'⟩

/-- Settles O16: the engine after the loop is ready with the open tail of all its bytes. -/
theorem updateAbsorbsData : Obligations.UpdateAbsorbsData := by
  unfold Obligations.UpdateAbsorbsData
  intro s t e tail n h hp hr hlen
  obtain ⟨e', ha, hr'⟩ := absorb_ready t.command.data hr
  have hused : e'.used = some ((tail.length + t.command.data.length) % 64) := by simpa using hr'.used
  rw [List.length_append] at hr'
  exact ⟨_, e', exec_update_of_absorb hp hr.life hlen ha, respond_answered _ _ _ _, respond_engine hp _ _, hr'.life, hused,
    hr'.bitlen, hr'.digest⟩

/-! ### UPDATEs in a row (R84) -/

/-- A step on an UPDATE line to an ACTIVE engine is the loop over its bytes and the answer OK. -/
theorem step_update_line {s : State} {k : Nat} {e e' : Engine} {d : List Byte} {ls : List AsmLine} {rest : List HostEvent}
    (he : s.engines[k]? = some e) (hin : s.inputs = issueLines k (.updateBytes d :: ls) ++ rest) (hl : e.life = .active)
    (hd : d.length < 2 ^ 63) (ha : absorb e d = .ok e') : step s = .next (respond s k e' (plainResponse .ok)) := by
  have hp : Presents s { engine := k, turn := .inTurn, command := (AsmLine.updateBytes d).command } e :=
    ⟨by rw [hin]; rfl, he⟩
  rw [step_of_presents hp rfl, decode_update_line]
  exact exec_update_of_absorb hp hl (signedLen_updateCommand hd).symm ha

/-- Settles O18: the loop over both pieces is the loop over the first and then over the second. -/
theorem updatesJoin : Obligations.UpdatesJoin := by
  unfold Obligations.UpdatesJoin
  intro s j k e tail n h d₁ d₂ rest rest' he hr hj hlen hs hjin
  have hparts := List.length_append (as := d₁) (bs := d₂)
  obtain ⟨e₁, ha₁, hr₁⟩ := absorb_ready d₁ hr
  obtain ⟨e₂, ha₂⟩ := absorb_succeeds d₂ hr₁
  have hjoin : absorb e (d₁ ++ d₂) = .ok e₂ := by rw [absorb_append, ha₁, ok_bind, ha₂]
  have hk : k < s.engines.length := (List.getElem?_eq_some_iff.mp he).1
  have hstep₁ := step_update_line he hs hr.life (by omega) ha₁
  have hstep₂ := step_update_line (s := respond s k e₁ (plainResponse .ok)) (k := k) (ls := []) (rest := rest) (by simp [hk])
    (by simp [hs, issueLines]) hr₁.life (by omega) ha₂
  have hstep := step_update_line (hj ▸ he) hjin hr.life hlen hjoin
  have hrun : runSteps 2 s = some (respond (respond s k e₁ (plainResponse .ok)) k e₂ (plainResponse .ok)) := by
    simp only [runSteps, hstep₁, hstep₂]
  exact ⟨_, _, hrun, hstep, by simp [hj]⟩

/-! ### INIT (R81) -/

/-- Settles O11: the engine INIT answers from is `initEngine` of the one presented. -/
theorem initStartsMessage : Obligations.InitStartsMessage := by
  unfold Obligations.InitStartsMessage
  exact fun s t e hp => ⟨_, exec_init_of_presents hp, respond_answered _ _ _ _, respond_engine hp (initEngine e) _⟩

/-! ### Runs of INIT, UPDATEs and FINAL (R134, R136) -/

/-- Settles O54: the run of the stream, its responses spelled out. -/
theorem streamingEquivalence : Obligations.StreamingEquivalence := by
  unfold Obligations.StreamingEquivalence
  exact fun s n e ds rest he hlen hin => runSteps_stream he hlen hin

/-- Settles O53: HASH is the stream of one piece. -/
theorem hashFromAnyState : Obligations.HashFromAnyState := by
  unfold Obligations.HashFromAnyState
  intro s n e d rest he hd hin
  obtain ⟨s', hrun, hinputs, hresponses⟩ := streamingEquivalence s n e [d] rest he (by simpa using hd) hin
  exact ⟨s', hrun, hinputs, by simpa [List.replicate_succ] using hresponses⟩

end Sys2Proof.Proofs.Absorption
end

section
/-! PROOFS. The Compression Transform (41_compression.md): the bit functions, the two storages of the schedule and of the rounds,
COMPRESS, and the tables `K` and `H_INIT`. -/

namespace Sys2Proof.Proofs.Compression

open Sys2Proof Sys2Proof.Machine

/-! ### The bit operations (R100, R101) -/

/-- R100's rotation is the library's. -/
theorem rotr_eq_rotateRight (x : Word) (n : Nat) (h : 1 ≤ n ∧ n ≤ 31) : rotr x n h = x.rotateRight n :=
  (BitVec.rotateRight_eq_rotateRightAux_of_lt (by omega)).symm

/-- R100: bit `i` comes from `n` places to the left, around the end. -/
theorem getLsbD_rotr (x : Word) {n i : Nat} (h : 1 ≤ n ∧ n ≤ 31) (hi : i < 32) :
    (rotr x n h).getLsbD i = x.getLsbD ((i + n) % 32) := by
  rw [rotr_eq_rotateRight, BitVec.getLsbD_rotateRight, Nat.mod_eq_of_lt (by omega : n < 32)]
  by_cases hlow : i < 32 - n
  · have source : (i + n) % 32 = n + i := by omega
    simp [hlow, source]
  · have source : (i + n) % 32 = i - (32 - n) := by omega
    simp [hlow, hi, source]

/-- R101: the shift fills with zeros from the left. -/
theorem getLsbD_shiftRight (x : Word) (n i : Nat) : (x >>> n).getLsbD i = (decide (i + n ≤ 31) && x.getLsbD (i + n)) := by
  rw [BitVec.getLsbD_ushiftRight, Nat.add_comm n i]
  by_cases hin : i + n ≤ 31
  · simp [hin]
  · simp [hin, BitVec.getLsbD_of_ge x (i + n) (by omega)]

/-- A rotated word is constant if the word is: each bit of it is a bit of the word. -/
theorem rotr_of_bits_eq {x : Word} {b : Bool} (hx : ∀ i, i < 32 → x.getLsbD i = b) (n : Nat) (h : 1 ≤ n ∧ n ≤ 31) :
    rotr x n h = x :=
  BitVec.eq_of_getLsbD_eq fun i hi => by rw [getLsbD_rotr x h hi, hx _ (Nat.mod_lt _ (by decide)), hx i hi]

/-- Settles O34: the bits of the library's rotation; a word whose bits are all equal stays as it is. -/
theorem rotrMovesBits : Obligations.RotrMovesBits := by
  unfold Obligations.RotrMovesBits
  have ones : ∀ i, i < 32 → (0xffffffff#32).getLsbD i = true := by decide
  exact ⟨fun x _ h _ hi => getLsbD_rotr x h hi,
    fun n h => ⟨rotr_of_bits_eq (fun i _ => BitVec.getLsbD_zero) n h, rotr_of_bits_eq ones n h⟩, by decide⟩

/-! ### The six functions (R102 to R107) -/

/-- Settles O35: the exclusive or of the bits the two rotations and the shift bring. -/
theorem smallSigmaBits : Obligations.SmallSigmaBits := by
  unfold Obligations.SmallSigmaBits
  refine ⟨fun x => ⟨rfl, rfl⟩, fun x i hi => ⟨?_, ?_⟩, fun x n i _ _ => getLsbD_shiftRight x n i, by decide⟩
  · simp only [sigma0, BitVec.getLsbD_xor, getLsbD_rotr _ _ hi, getLsbD_shiftRight]
  · simp only [sigma1, BitVec.getLsbD_xor, getLsbD_rotr _ _ hi, getLsbD_shiftRight]

/-- Settles O36: the exclusive or of the bits the three rotations bring. -/
theorem bigSigmaBits : Obligations.BigSigmaBits := by
  unfold Obligations.BigSigmaBits
  refine ⟨fun x => ⟨rfl, rfl⟩, fun x i hi => ⟨?_, ?_⟩, by decide⟩
  · simp only [bigSigma0, BitVec.getLsbD_xor, getLsbD_rotr _ _ hi]
  · simp only [bigSigma1, BitVec.getLsbD_xor, getLsbD_rotr _ _ hi]

/-- R106: Ch chooses between `y`'s and `z`'s bit by `x`'s. -/
theorem getLsbD_ch (x y z : Word) {i : Nat} (hi : i < 32) :
    (ch x y z).getLsbD i = if x.getLsbD i then y.getLsbD i else z.getLsbD i := by
  simp only [ch, BitVec.getLsbD_xor, BitVec.getLsbD_and, BitVec.getLsbD_not, hi]
  cases x.getLsbD i <;> simp

/-- The majority of three bits by Maj's formula. -/
theorem majority_bit : ∀ p q r : Bool, ((p && q) ^^ (q && r) ^^ (r && p)) = decide (2 ≤ p.toNat + q.toNat + r.toNat) := by
  decide

/-- R107: Maj is the majority of the three bits. -/
theorem getLsbD_maj (x y z : Word) (i : Nat) :
    (maj x y z).getLsbD i = decide (2 ≤ (x.getLsbD i).toNat + (y.getLsbD i).toNat + (z.getLsbD i).toNat) := by
  simp only [maj, BitVec.getLsbD_xor, BitVec.getLsbD_and, majority_bit]

/-- Two equal votes decide. -/
theorem maj_self (x z : Word) : maj x x z = x := by
  rw [maj, BitVec.and_self, BitVec.and_comm z x, BitVec.xor_assoc, BitVec.xor_self, BitVec.xor_zero]

/-- Settles O37: Ch and Maj on one bit of each word; the corner cases by their formulas. -/
theorem chooseAndMajorityBits : Obligations.ChooseAndMajorityBits := by
  unfold Obligations.ChooseAndMajorityBits
  have ones : 0xffffffff#32 = BitVec.allOnes 32 := rfl
  refine ⟨fun x y z => ⟨rfl, rfl⟩, fun x y z i hi => ⟨getLsbD_ch x y z hi, getLsbD_maj x y z i⟩,
    fun y z => ⟨?_, ?_, ?_⟩, maj_self, by decide⟩
  · rw [ch, ones, BitVec.allOnes_and, BitVec.not_allOnes, BitVec.zero_and, BitVec.xor_zero]
  · rw [ch, BitVec.zero_and, BitVec.not_zero, BitVec.allOnes_and, BitVec.zero_xor]
  · rw [maj, ones, BitVec.and_zero, BitVec.zero_and, BitVec.and_allOnes, BitVec.zero_xor, BitVec.zero_xor]

/-! ### FULL64 (R112) -/

/-- The loop of R112 appends its last word last. -/
theorem extendSchedule_succ (n : Nat) (w : List Word) :
    extendSchedule (n + 1) w = extendSchedule n w ++ [scheduleWord (extendSchedule n w)] := by
  induction n generalizing w with
  | zero => rfl
  | succ n ih => exact ih (w ++ [scheduleWord w])

@[simp] theorem extendSchedule_length (n : Nat) (w : List Word) : (extendSchedule n w).length = w.length + n := by
  induction n with
  | zero => rfl
  | succ n ih => simp [extendSchedule_succ, ih, Nat.add_assoc]

/-- A word of the schedule is not changed by what is appended after it. -/
theorem extendSchedule_getElem? {n t : Nat} {w : List Word} (h : t < w.length + n) (k : Nat) :
    (extendSchedule (n + k) w)[t]? = (extendSchedule n w)[t]? := by
  induction k with
  | zero => rfl
  | succ k ih => rw [← Nat.add_assoc, extendSchedule_succ, List.getElem?_append_left (by simp; omega), ih]

/-- `W[t]` of R112, `t` from 0 to 63. -/
def fullWord (m : List Word) (t : Nat) : Word := (scheduleFull m).getD t 0

section
variable {m : List Word} (hm : m.length = 16)
include hm

theorem scheduleFull_length : (scheduleFull m).length = 64 := by simp [scheduleFull, hm]

theorem scheduleFull_getElem? {t : Nat} (ht : t < 64) : (scheduleFull m)[t]? = some (fullWord m t) := by
  have hlen := scheduleFull_length hm
  simp [fullWord, hlen, ht]

/-- R112: the first 16 words are the block's. -/
theorem scheduleFull_block {t : Nat} (ht : t < 16) : (scheduleFull m)[t]? = m[t]? :=
  extendSchedule_getElem? (n := 0) (by omega) 48

/-- `W[t]` is there as soon as the loop has gone far enough. -/
theorem fullWord_eq {n t : Nat} (hn : n ≤ 48) (ht : t < n + 16) : fullWord m t = (extendSchedule n m).getD t 0 := by
  obtain ⟨k, hk⟩ := Nat.exists_eq_add_of_le hn
  rw [fullWord, scheduleFull, hk, List.getD_eq_getElem?_getD, extendSchedule_getElem? (by omega), List.getD_eq_getElem?_getD]

/-- R112's recurrence. -/
theorem fullWord_recurrence {t : Nat} (h16 : 16 ≤ t) (h64 : t < 64) :
    fullWord m t = sigma1 (fullWord m (t - 2)) + fullWord m (t - 7) + sigma0 (fullWord m (t - 15)) + fullWord m (t - 16) := by
  have hlen : (extendSchedule (t - 16) m).length = t := by simp; omega
  have before {i : Nat} (hi : i < t) : fullWord m i = (extendSchedule (t - 16) m).getD i 0 :=
    fullWord_eq hm (by omega) (by omega)
  calc fullWord m t
      = (extendSchedule (t - 16 + 1) m).getD t 0 := fullWord_eq hm (by omega) (by omega)
    _ = scheduleWord (extendSchedule (t - 16) m) := by simp [extendSchedule_succ, hlen]
    _ = _ := by rw [scheduleWord, hlen, before (by omega), before (by omega), before (by omega), before (by omega)]

end

/-- R112: on zeros the recurrence gives zero, because σ0(0) = σ1(0) = 0. -/
theorem scheduleWord_zeros (k : Nat) : scheduleWord (List.replicate k 0#32) = 0#32 := by
  have zero (i : Nat) : (List.replicate k 0#32).getD i 0 = 0#32 := by simp
  simp only [scheduleWord, zero]
  decide

theorem extendSchedule_zeros (n k : Nat) : extendSchedule n (List.replicate k 0#32) = List.replicate (k + n) 0#32 := by
  induction n with
  | zero => rfl
  | succ n ih => rw [extendSchedule_succ, ih, scheduleWord_zeros, ← Nat.add_assoc, List.replicate_succ']

/-- Settles O38: the loop keeps the words already there, and the last word it appends obeys the recurrence. -/
theorem scheduleFollowsRecurrence : Obligations.ScheduleFollowsRecurrence := by
  unfold Obligations.ScheduleFollowsRecurrence
  refine ⟨fun m hm => ⟨scheduleFull_length hm, fun t => scheduleFull_block hm, fun t ht => ?_⟩, extendSchedule_zeros 48 16,
    by decide, by decide⟩
  refine ⟨_, _, _, _, scheduleFull_getElem? hm (by omega), scheduleFull_getElem? hm (by omega),
    scheduleFull_getElem? hm (by omega), scheduleFull_getElem? hm (by omega), ?_⟩
  rw [scheduleFull_getElem? hm (by omega), fullWord_recurrence hm (by omega) (by omega)]
  simp only [Nat.reduceSubDiff, Nat.add_sub_cancel]

/-! ### ROLLING16 (R113) -/

/-- What the window holds when `t` words of the schedule are known, `t ≥ 16`: the 16 words before `W[t]`, each in the slot of its
index mod 16. -/
structure WindowHolds (m r : List Word) (t : Nat) : Prop where
  length : r.length = 16
  word   : ∀ i, i < t → t ≤ i + 16 → r.getD (i % 16) 0 = fullWord m i

/-- The block itself is the window for the first 16 rounds. -/
theorem windowHolds_block {m : List Word} (hm : m.length = 16) : WindowHolds m m 16 where
  length := hm
  word i hi _ := by rw [Nat.mod_eq_of_lt hi]; exact (fullWord_eq hm (n := 0) (by omega) (by omega)).symm

/-- R113 adds the word it replaces first, R112 last. -/
theorem add_first_to_last (a b c d : Word) : a + b + c + d = b + c + d + a := by ac_rfl

/-- R113: the update for round `t` replaces `W[t-16]` by `W[t]` and keeps the other 15 words. -/
theorem WindowHolds.roll {m r : List Word} {t : Nat} (hm : m.length = 16) (h : WindowHolds m r t) (h16 : 16 ≤ t)
    (h64 : t < 64) : WindowHolds m (rollWindow r t) (t + 1) := by
  have hslot : t % 16 < r.length := by rw [h.length]; omega
  have hnew : r.getD (t % 16) 0 + sigma1 (r.getD ((t - 2) % 16) 0) + r.getD ((t - 7) % 16) 0 +
      sigma0 (r.getD ((t - 15) % 16) 0) = fullWord m t := by
    rw [Nat.mod_eq_sub_mod h16, h.word _ (by omega) (by omega), h.word _ (by omega) (by omega), h.word _ (by omega) (by omega),
      h.word _ (by omega) (by omega), fullWord_recurrence hm h16 h64]
    exact add_first_to_last _ _ _ _
  refine ⟨by simp [rollWindow, h.length], fun i hi hi16 => ?_⟩
  rw [rollWindow, hnew]
  by_cases hit : i = t
  · simp [hit, hslot]
  · have hother : t % 16 ≠ i % 16 := by omega
    have hkept := h.word i (by omega) (by omega)
    simpa [hother] using hkept

/-- The rounds from `t` on see the words of the full schedule from `t` on. -/
theorem rollFrom_eq {m : List Word} (hm : m.length = 16) (n : Nat) {t : Nat} {r : List Word} (h : WindowHolds m r (max t 16))
    (hn : t + n ≤ 64) : rollFrom n t r = (List.range' t n).map (fullWord m) := by
  induction n generalizing t r with
  | zero => rfl
  | succ n ih =>
    have hnext : WindowHolds m (if t < 16 then r else rollWindow r t) (max (t + 1) 16) := by
      by_cases ht : t < 16
      · rwa [if_pos ht, show max (t + 1) 16 = max t 16 by omega]
      · rw [show max t 16 = t by omega] at h
        rw [if_neg ht, show max (t + 1) 16 = t + 1 by omega]
        exact h.roll hm (by omega) (by omega)
    rw [rollFrom, hnext.word t (by omega) (by omega), ih hnext (by omega), List.range'_succ, List.map_cons]

/-- ROLLING16 on a block is FULL64. -/
theorem scheduleRolling_eq {m : List Word} (hm : m.length = 16) : scheduleRolling m = scheduleFull m := by
  rw [scheduleRolling, rollFrom_eq hm 64 (windowHolds_block hm) (by omega)]
  refine List.ext_getElem? fun t => ?_
  by_cases ht : t < 64
  · simp [scheduleFull_getElem? hm ht, ht]
  · have hlen := scheduleFull_length hm
    rw [List.getElem?_eq_none (by simp; omega), List.getElem?_eq_none (by omega)]

/-- Settles O41: the window holds the 16 words before each round's. -/
theorem rollingScheduleAgrees : Obligations.RollingScheduleAgrees := by
  unfold Obligations.RollingScheduleAgrees
  exact fun m hm => scheduleRolling_eq hm

/-! ### CIRCULAR (R119) -/

/-- A write to the slot of variable `i` changes variable `i` alone. -/
theorem circVar_set {slots : List Word} (hlen : slots.length = 8) (base : Nat) {i j : Nat} (hi : i < 8) (hj : j < 8) (w : Word) :
    circVar (slots.set ((base + i) % 8) w) base j = if j = i then w else circVar slots base j := by
  have hslot : (base + i) % 8 < slots.length := by omega
  by_cases hji : j = i
  · simp [circVar, hji, hslot]
  · have hother : (base + i) % 8 ≠ (base + j) % 8 := by omega
    simp [circVar, hji, hother]

/-- Stepping the index back renames every variable but the last. -/
theorem circVar_stepBack (slots : List Word) (base j : Nat) : circVar slots ((base + 7) % 8) (j + 1) = circVar slots base j := by
  rw [circVar, circVar, show ((base + 7) % 8 + (j + 1)) % 8 = (base + j) % 8 by omega]

/-- Stepping the index back makes the last variable the first. -/
theorem circVar_stepBack_zero (slots : List Word) (base : Nat) : circVar slots ((base + 7) % 8) 0 = circVar slots base 7 := by
  rw [circVar, circVar, Nat.add_zero, Nat.mod_mod]

theorem circRound_length (s : List Word × Nat) (k w : Word) : (circRound s k w).1.length = s.1.length := by
  simp [circRound]

/-- One round on the circular array stands for one round of R114 on the variables. -/
theorem circWorking_circRound {s : List Word × Nat} (hlen : s.1.length = 8) (k w : Word) :
    circWorking (circRound s k w).1 (circRound s k w).2 = mixRound (circWorking s.1 s.2) k w := by
  have hlen' (v : Word) : (s.1.set ((s.2 + 3) % 8) v).length = 8 := by simpa using hlen
  simp only [circRound]
  rw [circWorking, mixRound]
  simp [circVar_stepBack, circVar_stepBack_zero, circVar_set, hlen, hlen', circWorking]

/-- The rounds on the circular array stand for the copying rounds. -/
theorem circWorking_foldl (kw : List (Word × Word)) {s : List Word × Nat} (hlen : s.1.length = 8) :
    circWorking (kw.foldl (fun s p => circRound s p.1 p.2) s).1 (kw.foldl (fun s p => circRound s p.1 p.2) s).2 =
      roundsCopy (circWorking s.1 s.2) kw := by
  induction kw generalizing s with
  | nil => rfl
  | cons p kw ih =>
    rw [List.foldl_cons, ih ((circRound_length s _ _).trans hlen), circWorking_circRound hlen]
    rfl

/-- Settles O42: the array begins as the eight variables with the index at `a`. -/
theorem circularRoundsAgree : Obligations.CircularRoundsAgree := by
  unfold Obligations.CircularRoundsAgree
  exact fun v kw => circWorking_foldl kw (s := ([v.a, v.b, v.c, v.d, v.e, v.f, v.g, v.h], 0)) rfl

/-! ### COMPRESS (R115 to R117) -/

/-- Settles O43: each storage of the schedule gives FULL64's words, and each storage of the rounds COPY8's result. -/
theorem storageIsUnobservable : Obligations.StorageIsUnobservable := by
  unfold Obligations.StorageIsUnobservable
  intro ss rs h m hm
  have hschedule : schedule ss m = scheduleFull m := by
    cases ss with
    | full64 => rfl
    | rolling16 => exact scheduleRolling_eq hm
  have hrounds (v : Working) (kw : List (Word × Word)) : rounds rs v kw = roundsCopy v kw := by
    cases rs with
    | copy8 => rfl
    | circular => exact circularRoundsAgree v kw
  rw [compressBy, hschedule, hrounds]
  rfl

/-- The rounds' inputs: the pairs `K[t]`, `W[t]` in order. -/
def roundInputs (m : List Word) : List (Word × Word) := kRom.zip (scheduleFull m)

/-- The working variables before each round and after the last. -/
def workingStates (h : Digest) (m : List Word) : List Working :=
  (roundInputs m).scanl (fun v p => mixRound v p.1 p.2) h.toWorking

theorem kRom_length : kRom.length = 64 := rfl

theorem roundInputs_length {m : List Word} (hm : m.length = 16) : (roundInputs m).length = 64 := by
  simp [roundInputs, kRom_length, scheduleFull_length hm]

theorem workingStates_length {m : List Word} (hm : m.length = 16) (h : Digest) : (workingStates h m).length = 65 := by
  rw [workingStates, List.length_scanl, roundInputs_length hm]

/-- R117: COMPRESS adds the last of the working states to the digest. -/
theorem compress_eq (h : Digest) (m : List Word) : compress h m = h.addWorking (roundsCopy h.toWorking (roundInputs m)) := rfl

theorem kRom_getElem? {t : Nat} (ht : t < 64) : ∃ k, kRom[t]? = some k :=
  ⟨_, List.getElem?_eq_getElem (by rw [kRom_length]; exact ht)⟩

/-- Round `t` reads `K[t]` and `W[t]`. -/
theorem roundInputs_getElem? {m : List Word} {t : Nat} {k w : Word} (hk : kRom[t]? = some k)
    (hw : (scheduleFull m)[t]? = some w) : (roundInputs m)[t]? = some (k, w) :=
  List.getElem?_zip_eq_some.mpr ⟨hk, hw⟩

/-- R114, R115: each working state is one round on the one before, with its own `K[t]` and `W[t]`. -/
theorem workingStates_succ {m : List Word} (hm : m.length = 16) (h : Digest) {t : Nat} (ht : t < 64) :
    ∃ v k w, (workingStates h m)[t]? = some v ∧ kRom[t]? = some k ∧ (scheduleFull m)[t]? = some w ∧
      (workingStates h m)[t + 1]? = some (mixRound v k w) := by
  obtain ⟨k, hk⟩ := kRom_getElem? ht
  have hw := scheduleFull_getElem? hm ht
  obtain ⟨v, hv⟩ : ∃ v, (workingStates h m)[t]? = some v :=
    ⟨_, List.getElem?_eq_getElem (by rw [workingStates_length hm]; omega)⟩
  refine ⟨v, k, fullWord m t, hv, hk, hw, ?_⟩
  rw [workingStates] at hv ⊢
  rw [List.getElem?_succ_scanl, hv, roundInputs_getElem? hk hw, Option.bind_some, Option.map_some]

/-- R115: the working state after the 64th round is the rounds' result. -/
theorem workingStates_last {m : List Word} (hm : m.length = 16) (h : Digest) :
    (workingStates h m)[64]? = some (roundsCopy h.toWorking (roundInputs m)) := by
  have hlen := roundInputs_length hm
  rw [workingStates, List.getElem?_scanl, if_pos (by omega), List.take_of_length_le (by omega)]
  rfl

/-- Settles O40: the states are the successive results of the fold over the rounds. -/
theorem compressRunsAllRounds : Obligations.CompressRunsAllRounds := by
  unfold Obligations.CompressRunsAllRounds
  refine ⟨fun h m hm => ⟨workingStates h m, workingStates_length hm h, List.getElem?_scanl_zero,
    fun t => workingStates_succ hm h, _, workingStates_last hm h, compress_eq h m⟩, by decide +kernel⟩

/-! ### One round (R114) -/

/-- Settles O39: the equations are the round's definition; the first round for "abc" is computed. -/
theorem roundFollowsItsEquations : Obligations.RoundFollowsItsEquations := by
  unfold Obligations.RoundFollowsItsEquations
  exact ⟨fun v k w => ⟨rfl, rfl, rfl, rfl, rfl, rfl, rfl, rfl⟩, by decide⟩

/-! ### The constants (R108 to R110) -/

/-- R110: `K` is computed from the primes by the library's integer cube root. -/
theorem kRom_eq_cubeRoots : kRom = firstPrimes.map fun p => BitVec.ofNat 32 (Nat.nthRoot 3 (p * 2 ^ 96)) := by
  decide +kernel

/-- There are as many primes below 312 as words of `K`. -/
theorem firstPrimes_length : firstPrimes.length = 64 := by
  have hlen := congrArg List.length kRom_eq_cubeRoots
  rw [kRom_length, List.length_map] at hlen
  exact hlen.symm

/-- R110: `H_INIT` is computed from the first 8 primes by the library's integer square root. -/
theorem hInit_eq_squareRoots :
    hInit.words = (firstPrimes.take 8).map fun p => BitVec.ofNat 32 (Nat.nthRoot 2 (p * 2 ^ 64)) := by
  decide +kernel

/-- Settles O44: the library's integer root is the floor of the root. -/
theorem constantsAreRootsOfPrimes : Obligations.ConstantsAreRootsOfPrimes := by
  unfold Obligations.ConstantsAreRootsOfPrimes
  have hprime {i : Nat} (hi : i < 64) : ∃ p, firstPrimes[i]? = some p :=
    ⟨_, List.getElem?_eq_getElem (by rw [firstPrimes_length]; exact hi)⟩
  refine ⟨firstPrimes_length, kRom_length, fun i hi => ?_, fun i hi => ?_⟩
  · obtain ⟨p, hp⟩ := hprime hi
    exact ⟨p, Nat.nthRoot 3 (p * 2 ^ 96), hp, Nat.pow_nthRoot_le (.inl (by decide)), Nat.lt_pow_nthRoot_add_one (by decide) _,
      by simp [kRom_eq_cubeRoots, hp]⟩
  · obtain ⟨p, hp⟩ := hprime (show i < 64 by omega)
    exact ⟨p, Nat.nthRoot 2 (p * 2 ^ 64), hp, Nat.pow_nthRoot_le (.inl (by decide)), Nat.lt_pow_nthRoot_add_one (by decide) _,
      by simp [hInit_eq_squareRoots, hp, hi]⟩

end Sys2Proof.Proofs.Compression
end

section
/-! PROOFS. Finalization (42_finalization.md): the number of padded blocks, what FINAL makes of a ready engine and of its
buffer, the digest of the message an engine holds, that nothing but an INIT or a reset changes a FINALIZED engine, and the digest of
the empty message. -/

namespace Sys2Proof.Proofs.Finalization

open Sys2Proof Sys2Proof.Machine Sys2Proof.Proofs.EngineState Sys2Proof.Proofs.Encoding

/-! ### The padded blocks (R131, R132) -/

/-- R132: a buffered tail and its padding are whole blocks, as many as FINAL compresses. -/
theorem add_padding_length {u : Nat} (len : BitVec 64) (hu : u < 64) :
    u + (padding u len).length = 64 * finalBlockCount u := by
  by_cases hfit : u ≤ 55
  · simp [padding, finalBlockCount, hfit]
    omega
  · simp [padding, finalBlockCount, hfit]
    omega

/-- R131: a padded message is the blocks UPDATE compressed and those FINAL compresses. -/
theorem padded_length (d : List Byte) :
    (padded d).length = 64 * (d.length / 64 + finalBlockCount (d.length % 64)) := by
  have hpad := add_padding_length (BitVec.ofNat 64 (8 * d.length)) (Nat.mod_lt d.length (by decide : 0 < 64))
  rw [padded, List.length_append]
  omega

/-- Settles O22: the two block counts are the two values of `finalBlockCount`. -/
theorem paddedMessageIsWholeBlocks : Obligations.PaddedMessageIsWholeBlocks := by
  unfold Obligations.PaddedMessageIsWholeBlocks
  intro d
  rw [padded_length, finalBlockCount]
  split_ifs
  · rfl
  · rfl

/-! ### FINAL on a ready engine (R130) -/

/-- FINAL of a presented command answers from the engine its verdict leaves. -/
theorem exec_final_of_verdict {s : State} {t : Transaction} {e e' : Engine} {r : Response} (hp : Presents s t e)
    (hv : finalVerdict e = .next (e', some r)) : exec .final s = .next (respond s t.engine e' r) := by
  rw [exec_eq_deliver hp, commandVerdict, hv]
  rfl

/-- FINAL, its `life` check passed, is its operation on the engine and the answer of the digest. -/
theorem exec_final_of_finalize {s : State} {t : Transaction} {e e' : Engine} {d : Digest} (hp : Presents s t e)
    (hlife : e.life = .active) (hf : finalize e = .ok (e', d)) :
    exec .final s = .next (respond s t.engine e' (digestResponse (digestBytes d))) :=
  exec_final_of_verdict hp (by simp [finalVerdict, hlife, hf])

/-- Settles O20: FINAL's operation on a ready engine compresses the tail and its padding, and its inversion lemma gives the
fields. -/
theorem finalPadsAndAnswers : Obligations.FinalPadsAndAnswers := by
  unfold Obligations.FinalPadsAndAnswers
  intro s t e tail n h hp hr
  obtain ⟨e', hf, -⟩ := finalize_of_ready hr
  obtain ⟨hlife, hused, hdigest, u, n', hu, hn, hbitlen⟩ := finalize_ok hf
  obtain rfl : u = tail.length := by simpa [hr.used] using hu.symm
  obtain rfl : n' = n := by simpa [hr.bitlen] using hn.symm
  exact ⟨_, e', _, exec_final_of_finalize hp hr.life hf, respond_answered _ _ _ _, respond_engine hp _ _, hlife, hused, hbitlen,
    hdigest, rfl⟩

/-- Settles O52: the verdict of FINAL on an engine that holds a message is the digest of the message. -/
theorem finalAnswersDigestOfMessage : Obligations.FinalAnswersDigestOfMessage := by
  unfold Obligations.FinalAnswersDigestOfMessage
  intro s t e msg hp hh
  obtain ⟨e', hverdict⟩ := finalVerdict_of_holds hh
  exact ⟨_, exec_final_of_verdict hp hverdict, respond_answered _ _ _ _⟩

/-! ### The buffer after FINAL (R35, R130)

No write of FINAL leaves the offsets 0 to 63, so its buffers before and after read alike from 64 on. -/

/-- The buffers read alike at every offset that is none of the block's (R40). -/
def AgreeOutside (m m' : Memory) : Prop := ∀ a, 64 ≤ a → m'.read a = m.read a

theorem AgreeOutside.trans {m₁ m₂ m₃ : Memory} (h : AgreeOutside m₁ m₂) (h' : AgreeOutside m₂ m₃) : AgreeOutside m₁ m₃ :=
  fun a ha => (h' a ha).trans (h a ha)

/-- A sequence succeeds just when its first part does and the rest does with its value. -/
theorem bind_eq_ok {ε α β : Type} {x : Except ε α} {f : α → Except ε β} {b : β} :
    (x >>= f) = .ok b ↔ ∃ a, x = .ok a ∧ f a = .ok b := by
  cases x with
  | error r => simp [error_bind]
  | ok a => simp [ok_bind]

theorem writeBytes_agreeOutside {bs : List Byte} {m m' : Memory} {p : Nat} (h : writeBytes m p bs = .ok m') :
    AgreeOutside m m' := by
  induction bs generalizing m p with
  | nil => cases h; exact fun _ _ => rfl
  | cons b bs ih =>
    obtain ⟨m₁, hb, hbs⟩ := bind_eq_ok.mp h
    obtain ⟨hp, rfl⟩ := writeByte_eq_ok.mp hb
    exact .trans (fun a ha => Memory.read_write_other m b (by omega)) (ih hbs)

theorem padOverflow_agreeOutside {m m' : Memory} {x x' : Digest} {p p' : Nat} (h : padOverflow m x p = .ok (m', x', p')) :
    AgreeOutside m m' := by
  unfold padOverflow at h
  split_ifs at h
  · obtain ⟨m₁, hz, h⟩ := bind_eq_ok.mp h
    obtain ⟨y, -, h⟩ := bind_eq_ok.mp h
    cases h
    exact writeBytes_agreeOutside hz
  · cases h
    exact fun _ _ => rfl

theorem finalize_agreeOutside {e e' : Engine} {d : Digest} (h : finalize e = .ok (e', d)) : AgreeOutside e.buf e'.buf := by
  unfold finalize at h
  obtain ⟨u, -, h⟩ := bind_eq_ok.mp h
  obtain ⟨n, -, h⟩ := bind_eq_ok.mp h
  obtain ⟨x, -, h⟩ := bind_eq_ok.mp h
  obtain ⟨m₁, hmark, h⟩ := bind_eq_ok.mp h
  obtain ⟨⟨m₂, x₂, p⟩, hover, h⟩ := bind_eq_ok.mp h
  obtain ⟨m₃, hfill, h⟩ := bind_eq_ok.mp h
  obtain ⟨m₄, hlen, h⟩ := bind_eq_ok.mp h
  obtain ⟨y, -, h⟩ := bind_eq_ok.mp h
  cases h
  exact (writeBytes_agreeOutside hmark).trans <| (padOverflow_agreeOutside hover).trans <|
    (writeBytes_agreeOutside hfill).trans (writeBytes_agreeOutside hlen)

/-- Settles O21: the buffer begins with the last block FINAL compressed, which begins with the tail when the length fits, and no
write leaves the block. -/
theorem finalLeavesLastBlock : Obligations.FinalLeavesLastBlock := by
  unfold Obligations.FinalLeavesLastBlock
  intro s t e tail n h hp hr
  obtain ⟨e', hf, hbegin, -⟩ := finalize_of_ready hr
  have hlast (a : Nat) (ha : a < 64) : e'.buf.read a =
      (tail ++ padding tail.length (n + BitVec.ofNat 64 (8 * tail.length)))[64 * (finalBlockCount tail.length - 1) + a]? := by
    rw [hbegin a (by rwa [lastBlock_length _ hr.bound]), List.getElem?_drop]
  refine ⟨_, e', exec_final_of_finalize hp hr.life hf, respond_engine hp _ _, hlast, fun hfit a ha => ?_,
    finalize_agreeOutside hf⟩
  have hone : finalBlockCount tail.length = 1 := if_pos hfit
  rw [hlast a (by omega), hone, Nat.sub_self, Nat.mul_zero, Nat.zero_add, List.getElem?_append_left ha, hr.bytes a ha]

/-! ### FINAL is terminal (R137) -/

/-- R162: outside ACTIVE every command but INIT is answered INVALID_STATE, and the engine stays as it is. -/
theorem commandVerdict_of_not_active {e : Engine} {i : Instr} (c : Command) (hl : e.life ≠ .active) (hi : i ≠ .init) :
    commandVerdict c e i = .next (e, some (plainResponse .invalidState)) := by
  cases i with
  | init => exact absurd rfl hi
  | update p => exact if_pos hl
  | final => exact if_pos hl

/-- Outside ACTIVE a transaction that goes on and is no INIT leaves the engine as it is, and is answered with an error. -/
theorem transactionVerdict_of_not_active {t : Transaction} {e e' : Engine} {r : Option Response} (hl : e.life ≠ .active)
    (hinit : decode t.command.cmd ≠ .ok .init) (h : transactionVerdict t e = .next (e', r)) :
    e' = e ∧ ∃ st, st ≠ .ok ∧ r = some (plainResponse st) := by
  unfold transactionVerdict at h
  cases ht : t.turn with
  | beforeResponse => simp [ht] at h
  | secondHost => simp [ht] at h
  | inTurn =>
    cases hd : decode t.command.cmd with
    | error f =>
      simp only [ht, hd] at h
      cases h
      exact ⟨rfl, .illegalCommand, by decide, rfl⟩
    | ok i =>
      have hi : i ≠ .init := by rintro rfl; exact hinit hd
      simp only [ht, hd, commandVerdict_of_not_active _ hl hi] at h
      cases h
      exact ⟨rfl, .invalidState, by decide, rfl⟩

/-- The engine of a response that an event adds is the one addressed. -/
theorem engine_of_afterEvent_responses {s : State} {m n : Nat} {e : Engine} {r : Option Response} {r' : Response}
    (h : (afterEvent s m e r).responses = s.responses ++ [{ engine := n, response := r' }]) : m = n ∧ r = some r' := by
  have hadded := List.append_cancel_left h
  cases r with
  | none => simp at hadded
  | some r => simpa using hadded

/-- Settles O25: the event is to another engine, or a command that is answered with an error. -/
theorem finalizedUntilInit : Obligations.FinalizedUntilInit := by
  unfold Obligations.FinalizedUntilInit
  intro s s' n e he hl h hreset hinit
  cases hin : s.inputs with
  | nil =>
    rw [step_of_idle hin] at h
    cases h
    exact ⟨he, fun r hr => by simp at hr⟩
  | cons ev rest =>
    obtain ⟨e₀, e', r, he₀, hv, rfl⟩ := eventVerdict_of_step_next hin h
    by_cases hn : ev.engine = n
    · subst hn
      obtain rfl : e₀ = e := by simpa [he₀] using he
      cases ev with
      | reset m => exact absurd (by simp [hin, HostEvent.engine]) hreset
      | issue t =>
        obtain ⟨rfl, st, hst, rfl⟩ :=
          transactionVerdict_of_not_active (by simp [hl]) (hinit t (by simp [hin]) rfl) hv
        refine ⟨afterEvent_engine he _ _, fun r hr => ?_⟩
        obtain ⟨-, hr⟩ := engine_of_afterEvent_responses hr
        cases hr
        exact ⟨rfl, fun h0 => hst (statusResp_eq_zero.mp h0)⟩
    · exact ⟨by simp [afterEvent, List.getElem?_set_ne hn, he],
        fun r hr => absurd (engine_of_afterEvent_responses hr).1 hn⟩

/-! ### The empty message (R135) -/

/-- R135: ENGINE of the empty message, from the one padded block `80 00 … 00`. -/
theorem engineFn_nil : engineFn [] =
    [0xe3, 0xb0, 0xc4, 0x42, 0x98, 0xfc, 0x1c, 0x14, 0x9a, 0xfb, 0xf4, 0xc8, 0x99, 0x6f, 0xb9, 0x24,
     0x27, 0xae, 0x41, 0xe4, 0x64, 0x9b, 0x93, 0x4c, 0xa4, 0x95, 0x99, 0x1b, 0x78, 0x52, 0xb8, 0x55] := by
  decide +kernel

/-- Settles O56: HASH of no bytes from any state answers `engineFn []`. -/
theorem emptyMessageDigest : Obligations.EmptyMessageDigest := by
  unfold Obligations.EmptyMessageDigest
  intro s n e he hin
  obtain ⟨s', hrun, -, hresponses⟩ := Absorption.hashFromAnyState s n e [] [] he (by decide) (by simpa using hin)
  refine ⟨s', hrun, ?_⟩
  rw [hresponses, engineFn_nil]
  simp

end Sys2Proof.Proofs.Finalization
end

section
/-! PROOFS. The platform's engines (60_exceptions.md section 4): an event to one engine leaves the others as they are, and what comes
of it does not depend on them (R172). -/

namespace Sys2Proof.Proofs.Exceptions

open Sys2Proof Sys2Proof.Machine Sys2Proof.Proofs.EngineState Sys2Proof.Proofs.Encoding

theorem afterEvent_engine_of_ne {n m : Nat} (h : m ≠ n) (s : State) (e : Engine) (r : Option Response) :
    (afterEvent s n e r).engines[m]? = s.engines[m]? :=
  List.getElem?_set_ne h.symm

theorem afterEvent_responses_congr {s s₂ : State} (h : s₂.responses = s.responses) (n : Nat) (e e₂ : Engine) (r : Option Response) :
    (afterEvent s₂ n e₂ r).responses = (afterEvent s n e r).responses := by
  simp [afterEvent, h]

/-- An event whose verdict goes on changes the platform as the verdict says, whatever the other engines are. -/
theorem step_of_eventVerdict_next {s : State} {ev : HostEvent} {rest : List HostEvent} {e e' : Engine} {r : Option Response}
    (hin : s.inputs = ev :: rest) (he : s.engines[ev.engine]? = some e) (hv : eventVerdict e ev = .next (e', r)) :
    step s = .next (afterEvent s ev.engine e' r) := by
  rw [step_eq_deliver hin he, hv]
  rfl

/-- Settles O26: the event changes only the engine it addresses, and its verdict is a function of the event and of that engine, which
are the same in both states. -/
theorem enginesAreIndependent : Obligations.EnginesAreIndependent := by
  unfold Obligations.EnginesAreIndependent
  intro s s' s₂ ev rest hin h
  obtain ⟨e, e', r, he, hv, rfl⟩ := eventVerdict_of_step_next hin h
  refine ⟨fun m hm => afterEvent_engine_of_ne hm s e' r, fun hin₂ hresp₂ heng₂ => ?_⟩
  have he₂ : s₂.engines[ev.engine]? = some e := heng₂.trans he
  have hstep₂ : step s₂ = .next (afterEvent s₂ ev.engine e' r) := step_of_eventVerdict_next (hin₂.trans hin) he₂ hv
  refine ⟨_, hstep₂, afterEvent_responses_congr hresp₂ _ _ _ _, ?_⟩
  rw [afterEvent_engine he₂, afterEvent_engine he]

end Sys2Proof.Proofs.Exceptions
end

section
/-! PROOFS. CMD words and their decoding (R61, R69, R70), and what the platform's step does with each kind of event: idling, a reset
input, a breach of the host's duties, an absent engine, an ILLEGAL word and a legal one (R5, R71, R163, R180, R183); last, that an
error answer changes nothing (R162, R165). -/

namespace Sys2Proof.Proofs.Commands

open Sys2Proof Sys2Proof.Machine Sys2Proof.Proofs.EngineState Sys2Proof.Proofs.Encoding

/-! ### The fields of a CMD word (R61)

A word and its three fields determine each other. -/

@[simp] theorem packCmd_splitCmd (w : Word) : packCmd (splitCmd w) = w := by
  have hhigh : w.extractLsb' 28 4 ++ w.extractLsb' 27 1 = w.extractLsb' 27 5 :=
    BitVec.extractLsb'_append_extractLsb'_eq_extractLsb' rfl
  have hall : w.extractLsb' 27 5 ++ w.extractLsb' 0 27 = w.extractLsb' 0 32 :=
    BitVec.extractLsb'_append_extractLsb'_eq_extractLsb' rfl
  rw [packCmd, splitCmd, hhigh, hall, BitVec.extractLsb'_eq_self]

@[simp] theorem splitCmd_packCmd (f : CmdFields) : splitCmd (packCmd f) = f := by
  obtain ⟨op, p, rsv⟩ := f
  have hop : (op ++ p ++ rsv).extractLsb' 28 4 = op :=
    (BitVec.extractLsb'_append_eq_of_le (by decide)).trans BitVec.extractLsb'_append_eq_left
  have hp : (op ++ p ++ rsv).extractLsb' 27 1 = p :=
    (BitVec.extractLsb'_append_eq_of_le le_rfl).trans BitVec.extractLsb'_append_eq_right
  have hrsv : (op ++ p ++ rsv).extractLsb' 0 27 = rsv := BitVec.extractLsb'_append_eq_right
  rw [packCmd, splitCmd, hop, hp, hrsv]

/-! ### Decoding (R69, R70): one equation for each reason to reject, and exactness on the accepted fields -/

theorem decode_reservedBits {w : Word} (h : (splitCmd w).rsv ≠ 0#27) : decode w = .error .reservedBits := if_pos h

theorem decode_dataPresent {w : Word} (hrsv : (splitCmd w).rsv = 0#27) (hop : (splitCmd w).op = 1#4 ∨ (splitCmd w).op = 3#4)
    (hp : (splitCmd w).p ≠ 0#1) : decode w = .error .dataPresent := by
  rcases hop with hop | hop
  · simp [decode, decodeFields, hrsv, hop, hp]
  · simp [decode, decodeFields, hrsv, hop, hp]

theorem decode_reservedOp {w : Word} (hrsv : (splitCmd w).rsv = 0#27) (hop : (splitCmd w).opDefined = false) :
    decode w = .error .reservedOp := by
  simp only [CmdFields.opDefined, Bool.or_eq_false_iff, beq_eq_false_iff_ne] at hop
  obtain ⟨⟨hinit, hupdate⟩, hfinal⟩ := hop
  simp [decode, decodeFields, hrsv, hinit, hupdate, hfinal]

@[simp] theorem decodeFields_fields (i : Instr) : decodeFields i.fields = .ok i := by
  cases i with
  | init => rfl
  | update p => cases p <;> rfl
  | final => rfl

/-- The one bit of P is the operand of UPDATE. -/
theorem ofBool_beq_one : ∀ p : BitVec 1, BitVec.ofBool (p == 1#1) = p := by decide

theorem fields_of_decodeFields {f : CmdFields} {i : Instr} (h : decodeFields f = .ok i) : i.fields = f := by
  unfold decodeFields at h
  split_ifs at h with hrsv hinit hp hupdate hfinal hp
  · cases h
    rw [Instr.fields, ← hinit, ← hp, ← not_not.mp hrsv]
  · cases h
    rw [Instr.fields, ofBool_beq_one, ← hupdate, ← not_not.mp hrsv]
  · cases h
    rw [Instr.fields, ← hfinal, ← hp, ← not_not.mp hrsv]

theorem decode_encode (i : Instr) : decode (encode i) = .ok i := by
  rw [decode, encode, splitCmd_packCmd, decodeFields_fields]

theorem decode_eq_ok {w : Word} {i : Instr} : decode w = .ok i ↔ encode i = w := by
  constructor
  · intro h
    rw [encode, fields_of_decodeFields h, packCmd_splitCmd]
  · rintro rfl
    exact decode_encode i

/-- R70: the words of the instructions are the four of the table. -/
theorem exists_encode_eq {w : Word} :
    (∃ i, encode i = w) ↔ w ∈ [0x10000000#32, 0x20000000#32, 0x28000000#32, 0x30000000#32] := by
  have hinit : encode .init = 0x10000000#32 := by decide
  have hupdate : encode (.update false) = 0x20000000#32 := by decide
  have hupdateData : encode (.update true) = 0x28000000#32 := by decide
  have hfinal : encode .final = 0x30000000#32 := by decide
  constructor
  · rintro ⟨_ | p | _, rfl⟩
    · simp [hinit]
    · cases p
      · simp [hupdate]
      · simp [hupdateData]
    · simp [hfinal]
  · intro h
    simp only [List.mem_cons, List.not_mem_nil, or_false] at h
    rcases h with rfl | rfl | rfl | rfl
    · exact ⟨_, hinit⟩
    · exact ⟨_, hupdate⟩
    · exact ⟨_, hupdateData⟩
    · exact ⟨_, hfinal⟩

/-- A word is rejected when no instruction has it as its word. -/
theorem decode_error_iff {w : Word} : (∃ r, decode w = .error r) ↔ ¬ ∃ i, encode i = w := by
  simp only [← decode_eq_ok]
  cases decode w with
  | error r => simp
  | ok i => simp

/-- Settles O3: decoding inverts encoding on both sides, and the encoded words are the four. -/
theorem decodingIsExact : Obligations.DecodingIsExact := by
  unfold Obligations.DecodingIsExact
  intro w
  exact ⟨fun i => decode_eq_ok, decode_error_iff.trans (not_congr exists_encode_eq)⟩

/-- Settles O1: the legal words are those of their instructions, and each illegal one has the fields of its reason. -/
theorem tableWordsDecode : Obligations.TableWordsDecode := by
  unfold Obligations.TableWordsDecode
  refine ⟨decode_eq_ok.mpr ?_, decode_eq_ok.mpr ?_, decode_eq_ok.mpr ?_, decode_eq_ok.mpr ?_,
    decode_dataPresent ?_ (.inl ?_) ?_, decode_dataPresent ?_ (.inr ?_) ?_,
    decode_reservedOp ?_ ?_, decode_reservedOp ?_ ?_, decode_reservedOp ?_ ?_,
    decode_reservedBits ?_, decode_reservedBits ?_⟩ <;> decide

/-- Settles O2: the fields survive packing, and those of an instruction decode to it. -/
theorem decodeOfEncode : Obligations.DecodeOfEncode := by
  unfold Obligations.DecodeOfEncode
  exact decode_encode

/-! ### The platform's step -/

/-- Settles O6: with no event the step is idle. -/
theorem idleHoldsState : Obligations.IdleHoldsState := by
  unfold Obligations.IdleHoldsState
  exact fun _ => step_of_idle

/-- Settles O5: the verdict on a reset is the reset engine with no response. -/
theorem resetInputClearsEngine : Obligations.ResetInputClearsEngine := by
  unfold Obligations.ResetInputClearsEngine
  intro s n e rest hin he
  have hstep : step s = .next (afterEvent s n Engine.reset none) :=
    Exceptions.step_of_eventVerdict_next (ev := .reset n) hin he rfl
  exact ⟨_, hstep, afterEvent_engine he _ _, fun m hm => Exceptions.afterEvent_engine_of_ne hm s _ _,
    List.length_set, by simp [hin], by simp [afterEvent]⟩

/-- Settles O7: of the two outcomes of decoding, the word has the one that is executed. -/
theorem stepRunsDecodedCommand : Obligations.StepRunsDecodedCommand := by
  unfold Obligations.StepRunsDecodedCommand
  intro s t e i hp ht hd
  rw [step_of_presents hp ht, hd]

/-- R163: a rejected word raises ILLEGAL_COMMAND. -/
theorem step_of_illegal {s : State} {t : Transaction} {e : Engine} {r : Illegal} (hp : Presents s t e) (ht : t.turn = .inTurn)
    (hd : decode t.command.cmd = .error r) : step s = raise s t.engine .illegalCommand := by
  rw [step_of_presents hp ht, hd]

/-- Settles O8: a word that is none of the four is rejected, and raising a status changes no engine. -/
theorem illegalWordAnswered : Obligations.IllegalWordAnswered := by
  unfold Obligations.IllegalWordAnswered
  intro s t e hp ht hword
  obtain ⟨r, hd⟩ := (decodingIsExact t.command.cmd).2.mpr hword
  exact ⟨_, step_of_illegal hp ht hd, rfl, answer_answered s t.engine (plainResponse .illegalCommand)⟩

theorem step_of_issue {s : State} {t : Transaction} {rest : List HostEvent} (hin : s.inputs = .issue t :: rest) :
    step s = runTransaction s t := by
  simp [step, runEvent, hin]

/-- Settles O9: the duties come before everything else a transaction is checked for. -/
theorem dutyBreachRefused : Obligations.DutyBreachRefused := by
  unfold Obligations.DutyBreachRefused
  intro s t rest hin
  rw [step_of_issue hin]
  exact ⟨fun ht => by simp [runTransaction, ht], fun ht => by simp [runTransaction, ht]⟩

theorem withTransaction_of_absent {s : State} {t : Transaction} {rest : List HostEvent} (hin : s.inputs = .issue t :: rest)
    (he : s.engines[t.engine]? = none) (k : Transaction → Engine → Host.Outcome State Fault Refusal) :
    withTransaction s k = .refused (.noSuchEngine t.engine) := by
  simp [withTransaction, hin, he]

theorem withTransaction_of_no_issue {s : State} (h : ∀ t, s.inputs.head? ≠ some (.issue t))
    (k : Transaction → Engine → Host.Outcome State Fault Refusal) : withTransaction s k = .refused .noTransaction := by
  unfold withTransaction
  cases hin : s.inputs with
  | nil => rfl
  | cons ev rest =>
    cases ev with
    | reset n => rfl
    | issue t => exact absurd (by simp [hin]) (h t)

/-- Every instruction works on the presented transaction and on the engine it addresses. -/
theorem exec_eq_withTransaction (i : Instr) (s : State) : ∃ k, exec i s = withTransaction s k := by
  cases i with
  | init => exact ⟨_, rfl⟩
  | update p => exact ⟨_, rfl⟩
  | final => exact ⟨_, rfl⟩

/-- Settles O10: every instruction asks for its transaction first, and a step on an event to an absent engine is refused. -/
theorem absentTargetRefused : Obligations.AbsentTargetRefused := by
  unfold Obligations.AbsentTargetRefused
  refine ⟨fun s t rest hin ht he => ⟨?_, fun i => ?_⟩, fun s n rest hin he => ?_, fun s h i => ?_⟩
  · rw [step_of_absent hin he, absentRefusal, ht]
  · obtain ⟨k, hk⟩ := exec_eq_withTransaction i s
    rw [hk, withTransaction_of_absent hin he]
  · rw [step_of_absent hin he, absentRefusal]
  · obtain ⟨k, hk⟩ := exec_eq_withTransaction i s
    rw [hk, withTransaction_of_no_issue h]

/-! ### Error answers (R162, R165) -/

/-- R162: every command but INIT needs an ACTIVE engine. -/
theorem exec_of_not_active {s : State} {t : Transaction} {e : Engine} {i : Instr} (hp : Presents s t e) (hl : e.life ≠ .active)
    (hi : i ≠ .init) : exec i s = raise s t.engine .invalidState := by
  rw [exec_eq_deliver hp, Finalization.commandVerdict_of_not_active _ hl hi, ← raise_eq_deliver hp.2]

/-- Settles O19: the `life` check of FINAL. -/
theorem finalOutsideActiveFails : Obligations.FinalOutsideActiveFails := by
  unfold Obligations.FinalOutsideActiveFails
  intro s t e hp hl
  exact Absorption.failsWith_of_raise (exec_of_not_active hp hl (by decide))

/-- An instruction that goes on either answers a status alone and leaves every engine, or succeeds with RESP 0. -/
theorem exec_next_answer_or_ok {i : Instr} {s s' : State} (h : exec i s = .next s') :
    (∃ n st, s' = answer s n (plainResponse st)) ∨ ∃ n e r, r.resp = 0#32 ∧ s' = respond s n e r := by
  cases i with
  | init =>
    obtain ⟨t, e, -, rfl⟩ := execInit_next h
    exact .inr ⟨_, _, _, statusResp_eq_zero.mpr rfl, rfl⟩
  | update p =>
    obtain ⟨t, e, -, ⟨-, rfl⟩ | ⟨-, rfl⟩ | ⟨-, -, -, -, e', -, rfl⟩⟩ := execUpdate_next h
    · exact .inl ⟨_, _, rfl⟩
    · exact .inl ⟨_, _, rfl⟩
    · exact .inr ⟨_, _, _, statusResp_eq_zero.mpr rfl, rfl⟩
  | final =>
    obtain ⟨t, e, -, ⟨-, rfl⟩ | ⟨-, e', d, -, rfl⟩⟩ := execFinal_next h
    · exact .inl ⟨_, _, rfl⟩
    · exact .inr ⟨_, _, _, statusResp_eq_zero.mpr rfl, rfl⟩

/-- A step that goes on adds no response, or answers a status alone and leaves every engine, or succeeds with RESP 0. -/
theorem step_next_silent_or_answer_or_ok {s s' : State} (h : step s = .next s') :
    s'.responses = s.responses ∨ (∃ n st, s' = answer s n (plainResponse st)) ∨
      ∃ n e r, r.resp = 0#32 ∧ s' = respond s n e r := by
  rcases step_next h with ⟨-, rfl⟩ | ⟨n, -, -, rfl⟩ | ⟨t, e, -, -, -, rfl⟩ | ⟨t, e, i, -, -, -, hexec⟩
  · exact .inl rfl
  · exact .inl rfl
  · exact .inr (.inl ⟨_, _, rfl⟩)
  · exact .inr (exec_next_answer_or_ok hexec)

/-- Settles O23: a step that adds a response with RESP not 0 can only be the answer of a status alone. -/
theorem failureChangesNothing : Obligations.FailureChangesNothing := by
  unfold Obligations.FailureChangesNothing
  intro s s' n r h hadded hresp
  rcases step_next_silent_or_answer_or_ok h with hsame | ⟨m, st, rfl⟩ | ⟨m, e, r', hok, rfl⟩
  · simp [hsame] at hadded
  · obtain ⟨-, rfl⟩ : m = n ∧ plainResponse st = r := by simpa using hadded
    exact ⟨rfl, rfl⟩
  · obtain ⟨-, rfl⟩ : m = n ∧ r' = r := by simpa using hadded
    exact absurd hok hresp

end Sys2Proof.Proofs.Commands
end
